-- ==== Sys2Proof/Word.lean ====
section
/-! DEFINITION. The two value types of the block (00_scope R7): a byte and a 32-bit word. -/

namespace Sys2Proof

/-- A *word* is an unsigned 32-bit value (R7); `REG_WIDTH` and `ADDR_WIDTH` are 32 (R4). -/
abbrev Word := BitVec 32

/-- A *byte* is an unsigned 8-bit value (R7); `OUT_WIDTH` is 8 (R4). -/
abbrev Byte := BitVec 8

end Sys2Proof
end

