-- ==== Sys2Proof/Config.lean ====
section
/-! DEFINITION. What is fixed for this hardware (00_scope R4), the platform's OPEN parameters, and the one free
value the spec leaves (93 U3). `MEM_SIZE`, the OPEN parameter that the commands' checks use, stands in `State`. -/

namespace Sys2Proof.Config

/-- R21: the hardwired value of ID, "LB" and command interface version 1. -/
def idValue : Word := 0x4C420001#32

/-- `CRC_POLY` (R4, R100). -/
def crcPoly : Word := 0xEDB88320#32

/-- 93 U3, R178: whether the `n`-th host read that falls on a SCANLINE destination cell while the command is busy
returns the new value (true) or the old one (false). A free value: nothing constrains it (log 5).
DESIGN CHOICE (log 22): there is one such constant, and each block indexes it by its own counter, so two blocks whose
counters agree make the same choice. -/
opaque dstReadNew : Nat → Bool

/-- The platform's OPEN parameters (R4, R62, R160): where the host sees the register window and MEM, and how irq is
delivered. They are arguments of Machine/Platform.lean; no rule of the block itself depends on them. -/
structure Platform where
  /-- `REG_BASE`: the host address of register offset 0. -/
  regBase  : Nat
  /-- `MEM_BASE`: the host address of MEM address 0. -/
  memBase  : Nat
  /-- `IRQ_ROUTE`: the interrupt line that carries irq. -/
  irqRoute : Nat
  deriving DecidableEq, Repr

end Sys2Proof.Config
end

