-- ==== Sys2Proof/Syntax.lean ====
section
/-! DEFINITION. The instructions: the five commands of 30_encoding R72, one constructor per row of the opcode table.
A command word carries no operand (R71): every operand is an argument register. -/

namespace Sys2Proof

inductive Instr where
  /-- R145: complete with no effect. -/
  | nop
  /-- R103: CRC-32 of a MEM range into CRC_RESULT. -/
  | crc
  /-- R112: one chunk frame on OUT. -/
  | chunk
  /-- R123: a pixel buffer of MEM in scanline layout, written to MEM. -/
  | scanline
  /-- R133: a whole PNG stream on OUT. -/
  | encode
  deriving DecidableEq, Repr

end Sys2Proof
end

