-- ==== Sys2Proof/WellFormed.lean ====
section
/-! DEFINITION. Which instructions and which command words are well formed (30_encoding R70, R72). -/

namespace Sys2Proof

/-- R71: no command has an immediate, a register number or a mode field, so no command can be ill formed. -/
def Instr.wellFormed : Instr → Bool
  | .nop => true
  | .crc => true
  | .chunk => true
  | .scanline => true
  | .encode => true

/-- R70: the reserved field RSV, bits 31:4, "must be 0". -/
def rsvZero (w : Word) : Bool := w.extractLsb' 4 28 == 0#28

/-- R72: the opcodes 0x5 to 0xF of the field OP, bits 3:0, are reserved. -/
def opDefined (w : Word) : Bool := decide ((w.extractLsb' 0 4).toNat ≤ 4)

/-- R72: "a command is selected only when all of bits 31:4 are 0 and OP is 0x0 to 0x4". -/
def wordWellFormed (w : Word) : Bool := rsvZero w && opDefined w

end Sys2Proof
end

