-- ==== Sys2Proof/Decode.lean ====
section
/-! DEFINITION. The decoder of 30_encoding R73, total on every 32-bit word, and the encoder of R72. -/

namespace Sys2Proof

/-- Why a word is no command. Both reasons raise `InvalidArgument(ILLEGAL_CMD)` (R73, R74). -/
inductive DecodeReject where
  /-- bits 31:4 are not all 0 -/
  | reservedBits
  /-- OP is 0x5 to 0xF -/
  | reservedOpcode
  deriving DecidableEq, Repr

/-- R70: the field OP. -/
def opField (w : Word) : BitVec 4 := w.extractLsb' 0 4

/-- R70: the field RSV. -/
def rsvField (w : Word) : BitVec 28 := w.extractLsb' 4 28

/-- The opcode map of R72. -/
def opcodeInstr (op : BitVec 4) : Option Instr :=
  match op.toNat with
  | 0x0 => some .nop
  | 0x1 => some .crc
  | 0x2 => some .chunk
  | 0x3 => some .scanline
  | 0x4 => some .encode
  | _ => none

/-- `decode(w)` of R73. -/
def decode (w : Word) : Except DecodeReject Instr :=
  if rsvField w = 0#28 then
    match opcodeInstr (opField w) with
    | some i => .ok i
    | none => .error .reservedOpcode
  else .error .reservedBits

/-- The opcode of a command (R72). -/
def opcodeOf : Instr → BitVec 4
  | .nop => 0x0#4
  | .crc => 0x1#4
  | .chunk => 0x2#4
  | .scanline => 0x3#4
  | .encode => 0x4#4

/-- The command word of an instruction: OP in bits 3:0 and RSV = 0 (R70, R72). -/
def encode (i : Instr) : Word := (opcodeOf i).setWidth 32

/-- The instruction that the decoder reads from the opcode table's word `w`: a command is one 32-bit word (R75), moved
whole by the register port (R70), so the word's bits are the table's bits. -/
def decodeTableWord (_nbits w : Nat) : Option Instr :=
  match decode (BitVec.ofNat 32 w) with
  | .ok i => some i
  | .error _ => none

end Sys2Proof
end

