-- ==== Sys2Proof/Machine/State.lean ====
section
/-! DEFINITION. The state of the block as plain data (10_state), the reasons to stop, and the state after power-on
reset (70_reset R170, R172). -/

namespace Sys2Proof.Machine

/-- The causes of `InvalidArgument`, the only error kind of the block (60_exceptions R150, R151). An error is no fault
of the model: it ends the command and is recorded in STATUS (R152). -/
inductive InvalidArgument where
  | illegalCmd
  | badTagLen
  | zeroDim
  | pixelLen
  | lenOverflow
  | range
  | overlap
  deriving DecidableEq, Repr

/-- Why a run stops. -/
inductive Fault where
  /-- Raised by an engine or host read of a MEM cell that holds no value (R51, R52, 93 U1). Safe: the hardware goes on
  with an unspecified value. -/
  | unwrittenRead (addr : Nat)
  /-- Raised by a host write, while busy, to a cell the running command reads or writes (R177, 93 U2). Safe: the
  hardware goes on with an unspecified result. -/
  | hostWriteHazard (addr : Nat)
  deriving DecidableEq, Repr

/-- Why an instruction has no meaning. -/
inductive Refusal where
  /-- Raised by an arm of `exec` whose instruction has no meaning yet. Safe. No arm of this model does. -/
  | notModelled (mnemonic : String)
  deriving DecidableEq, Repr

/-- Where the engine takes a byte from: a fixed byte of the output format, or a MEM cell. -/
inductive ByteSource where
  | const (b : Byte)
  | cell (addr : Nat)
  deriving DecidableEq, Repr

/-- One event of a running command's effect or completion phase (44_system R142); a cell is read where its byte is used
(93 U18, log 12). -/
inductive EngineEvent where
  /-- `c <- 0xFFFFFFFF` of R101: the accumulator starts a new CRC. -/
  | crcInit
  /-- One byte is read and folded into the accumulator (R101, R103). -/
  | crcFold (src : ByteSource)
  /-- One byte is emitted on OUT, not the last one; when `fold`, the accumulator takes it in as well (R111, R136). -/
  | emit (src : ByteSource) (fold : Bool)
  /-- Byte `k` of `BE4(NOT accumulator)` is emitted (R104, R110), with the `last` marker of R57. -/
  | emitCrc (k : Fin 4) (last : Bool)
  /-- One byte is written to MEM (R56). -/
  | store (dst : Nat) (src : ByteSource)
  /-- `complete` of R143; when `crc`, CRC_RESULT takes the finished CRC. -/
  | complete (crc : Bool) (xfer : Word)
  deriving DecidableEq, Repr

/-- The scheduled events: what the agents of 44_system R149 do, in order (log 1). -/
inductive Event where
  /-- Host register read at a host address (R146). -/
  | hostRead (addr : Word)
  /-- Host register write (R147). -/
  | hostWrite (addr value : Word)
  /-- Host MEM read of one byte (R52). -/
  | memRead (addr : Word)
  /-- Host MEM write of one byte (R52). -/
  | memWrite (addr : Word) (value : Byte)
  /-- The host reads STATUS until it shows DONE = 1 (R80). -/
  | poll
  /-- The engine performs its next event (R142). -/
  | engine
  /-- The engine performs its events until the command ends or waits for the consumer. -/
  | run
  /-- The consumer accepts the byte the engine offers (R58). -/
  | accept
  /-- From here on the consumer accepts every byte at once, or none (R58). -/
  | consumer (ready : Bool)
  /-- A reset other than power-on (R170, R171, R173). -/
  | reset
  /-- Power-on (R172). -/
  | powerOn
  deriving DecidableEq, Repr

/-- What a host read returned. -/
inductive HostData where
  | word (value : Word)
  | byte (value : Byte)
  deriving DecidableEq, Repr

/-- MEM: the written cells with their bytes, addresses strictly rising. An unlisted address holds no value (R51,
log 6). -/
abbrev Memory := List Host.Cell

/-- The canonical form of `Memory`: addresses strictly rising. No byte equals what an unlisted address reads as, since
such an address has no value. -/
abbrev Memory.wf (m : Memory) : Prop := m.Pairwise fun c d => c.1 < d.1

/-- STATUS, but for BUSY, which is the engine's phase (R23, R42, log 15). Reserved bits have no storage. -/
structure Status where
  done    : Bool
  err     : Bool
  wign    : Bool
  errCode : BitVec 4
  lastOp  : BitVec 4
  deriving DecidableEq, Repr

/-- The argument registers (R26 to R32, R38). -/
structure Regs where
  srcAddr : Word
  srcLen  : Word
  dstAddr : Word
  tagAddr : Word
  tagLen  : Word
  width   : Word
  height  : Word
  deriving DecidableEq, Repr

/-- The engine's phase (R42). -/
inductive Phase where
  | idle
  | run
  deriving DecidableEq, Repr

/-- The engine's hidden state (R42). -/
structure Engine where
  phase     : Phase
  /-- The command word latched at start. -/
  op        : Word
  /-- The running command's validation phase is over (R142). -/
  validated : Bool
  /-- What the running command still has to do. -/
  pending   : List EngineEvent
  /-- The CRC accumulator (R101). -/
  crc       : Word
  /-- The model's own: MEM when the running command started, for the old values of R178 (log 10). -/
  before    : Memory
  deriving DecidableEq, Repr

/-- A byte the consumer has accepted, with the `last` marker given with it (R57). -/
structure OutByte where
  byte : Byte
  last : Bool
  deriving DecidableEq, Repr

structure State where
  /-- `MEM_SIZE - 1`, the last MEM address (R4, R51, log 3). -/
  memTop        : Word
  /-- CTRL.IE (R22). -/
  ie            : Bool
  status        : Status
  regs          : Regs
  /-- CRC_RESULT (R33). -/
  crcResult     : Word
  /-- XFER_COUNT (R34). -/
  xferCount     : Word
  /-- MEM (R51). -/
  mem           : Memory
  /-- OUT, oldest first (R57). -/
  out           : List OutByte
  engine        : Engine
  /-- The model's own: the consumer accepts a byte as soon as it is offered (R58, log 4). -/
  consumerReady : Bool
  /-- The model's own: the events to come, the next one first (R149, log 1). -/
  inputs        : List Event
  /-- The model's own: what the host's reads returned, oldest first (R146, log 11). -/
  hostReads     : List HostData
  /-- The model's own: how many free choices of 93 U3 have been made (log 5). -/
  draws         : Nat
  deriving DecidableEq, Repr

/-! One update per field; their laws are in Laws/State.lean. -/

def State.setIe (s : State) (v : Bool) : State := { s with ie := v }
def State.setStatus (s : State) (v : Status) : State := { s with status := v }
def State.setRegs (s : State) (v : Regs) : State := { s with regs := v }
def State.setCrcResult (s : State) (v : Word) : State := { s with crcResult := v }
def State.setXferCount (s : State) (v : Word) : State := { s with xferCount := v }
def State.setMem (s : State) (v : Memory) : State := { s with mem := v }
def State.setOut (s : State) (v : List OutByte) : State := { s with out := v }
def State.setEngine (s : State) (v : Engine) : State := { s with engine := v }
def State.setConsumerReady (s : State) (v : Bool) : State := { s with consumerReady := v }
def State.setInputs (s : State) (v : List Event) : State := { s with inputs := v }
def State.setHostReads (s : State) (v : List HostData) : State := { s with hostReads := v }
def State.setDraws (s : State) (v : Nat) : State := { s with draws := v }

/-- STATUS after reset (R23, R170). -/
def Status.reset : Status := ⟨false, false, false, 0#4, 0#4⟩

/-- The argument registers after reset (R26 to R32, R170). -/
def Regs.reset : Regs := ⟨0#32, 0#32, 0#32, 0#32, 0#32, 0#32, 0#32⟩

/-- The engine after reset: IDLE with nothing pending (R170). The latched word, the validation mark and the accumulator
are hidden and the spec gives them no reset value: zero (DESIGN CHOICE, log 9). -/
def Engine.reset : Engine := ⟨.idle, 0#32, false, [], 0#32, []⟩

/-- The machine after power-on (R170, R172). `memTop`, `consumerReady` and `inputs` are the model's choice (DESIGN
CHOICE, logs 3, 4, 1). -/
def State.reset : State where
  memTop := 0xFFFFFFFF#32
  ie := false
  status := Status.reset
  regs := Regs.reset
  crcResult := 0#32
  xferCount := 0#32
  mem := []
  out := []
  engine := Engine.reset
  consumerReady := true
  inputs := []
  hostReads := []
  draws := 0

end Sys2Proof.Machine
end

