-- ==== Sys2Proof/Machine/Flags.lean ====
section
/-! DEFINITION. STATUS (10_state R23, R24, R40): what start, completion, an error, a W1C write and an ignored write do to
it, the word the host reads, and irq (60_exceptions R160). -/

namespace Sys2Proof.Machine

/-- STATUS.BUSY, "1 exactly when `phase = RUN`" (R42). -/
def State.busy (s : State) : Bool := s.engine.phase == .run

/-- The irq output (R160): `CTRL.IE AND STATUS.DONE`. -/
def State.irq (s : State) : Bool := s.ie && s.status.done

/-- The error codes of R150. -/
def errorCode : InvalidArgument → BitVec 4
  | .illegalCmd => 1#4
  | .badTagLen => 2#4
  | .zeroDim => 3#4
  | .pixelLen => 4#4
  | .lenOverflow => 5#4
  | .range => 6#4
  | .overlap => 7#4

/-- What `start(w)` does to STATUS (R141). WIGN is kept. -/
def statusStart (w : Word) (st : Status) : Status :=
  { st with done := false, err := false, errCode := 0#4, lastOp := opField w }

/-- What `complete` does to STATUS (R143). -/
def statusComplete (st : Status) : Status := { st with done := true }

/-- What `error_complete(code)` does to STATUS (R152). -/
def statusError (e : InvalidArgument) (st : Status) : Status :=
  { st with err := true, errCode := errorCode e, done := true }

/-- A host write of `v` to STATUS (R24): only the write-1-to-clear bits change. -/
def statusW1C (v : Word) (st : Status) : Status :=
  { done := st.done && !v.getLsbD 1
    err := st.err && !v.getLsbD 2
    errCode := if v.getLsbD 2 then 0#4 else st.errCode
    wign := st.wign && !v.getLsbD 3
    lastOp := st.lastOp }

/-- `ignored_write()` of R144. -/
def statusIgnoredWrite (st : Status) : Status := { st with wign := true }

/-- A flag at its place in a word. -/
def flagBit (b : Bool) (k : Nat) : Word := if b then 1#32 <<< k else 0#32

/-- The STATUS word (R23): LAST_OP in 15:12, ERR_CODE in 11:8, WIGN, ERR, DONE and BUSY in 3:0, 0 elsewhere. -/
def statusWord (busy : Bool) (st : Status) : Word :=
  (st.lastOp.setWidth 32 <<< 12) ||| (st.errCode.setWidth 32 <<< 8) ||| flagBit st.wign 3 ||| flagBit st.err 2 |||
    flagBit st.done 1 ||| flagBit busy 0

/-- The CTRL word (R22): IE in bit 0, 0 elsewhere. -/
def ctrlWord (ie : Bool) : Word := flagBit ie 0

end Sys2Proof.Machine
end

