-- ==== Sys2Proof/Machine/Operands.lean ====
section
/-! DEFINITION. Operands: big-endian fields (00_scope R10), MEM cells and ranges (20_memory R51, R53, R54), the sources
of the engine's bytes, and ordered validation (00_scope R14). -/

namespace Sys2Proof.Machine

/-- `MEM_SIZE` (R4): at least 1 and at most 2^32. -/
def State.memSize (s : State) : Nat := s.memTop.toNat + 1

/-- Byte `k` of `BE4(v)` (R10), the most significant byte first. -/
def be4Byte (v : Word) (k : Fin 4) : Byte := v.extractLsb' (24 - 8 * k.val) 8

/-- `BE4(v)` (R10). -/
def be4 (v : Word) : List Byte := [be4Byte v 0, be4Byte v 1, be4Byte v 2, be4Byte v 3]

/-! ## MEM -/

/-- The byte a cell holds, or none when it is unwritten (R51). -/
def memGet : Memory → Nat → Option Byte
  | [], _ => none
  | (a, b) :: m, x => if a = x then some b else memGet m x

/-- A cell takes a byte. -/
def memPut : Memory → Nat → Byte → Memory
  | [], x, v => [(x, v)]
  | (a, b) :: m, x, v =>
    if x < a then (x, v) :: (a, b) :: m
    else if x = a then (x, v) :: m
    else (a, b) :: memPut m x v

/-- The cells `a .. a+n-1` become unwritten (R171). -/
def memErase (m : Memory) (a n : Nat) : Memory := m.filter fun c => !(decide (a ≤ c.1) && decide (c.1 < a + n))

/-- `MemRead(a, n)` of R12 on a memory: none when a cell of the range is unwritten. -/
def memRead (m : Memory) (a : Nat) : Nat → Option (List Byte)
  | 0 => some []
  | n + 1 =>
    match memGet m a, memRead m (a + 1) n with
    | some b, some bs => some (b :: bs)
    | _, _ => none

/-! ## Ranges -/

/-- `Valid(a, n)` of R53, in exact arithmetic. -/
def rangeValid (memSize a n : Nat) : Bool := n == 0 || decide (a + n ≤ memSize)

/-- `Overlap((a, n), (b, m))` of R54. -/
def rangesOverlap (a n b m : Nat) : Bool := decide (0 < n) && decide (0 < m) && decide (a < b + m) && decide (b < a + n)

/-- Cell `x` is one of the range's (R53). -/
def inRange (r : Nat × Nat) (x : Nat) : Bool := decide (r.1 ≤ x) && decide (x < r.1 + r.2)

/-! ## Byte sources -/

/-- The cells of the range `(a, n)`, ascending (R55). -/
def cells (a n : Nat) : List ByteSource := (List.range n).map fun k => .cell (a + k)

/-- Fixed bytes as sources. -/
def consts (bs : List Byte) : List ByteSource := bs.map .const

/-- The byte a source gives, or none when its cell is unwritten. -/
def sourceByte (m : Memory) : ByteSource → Option Byte
  | .const b => some b
  | .cell a => memGet m a

/-- The address a source reads, for the fault's report. -/
def sourceAddr : ByteSource → Nat
  | .const _ => 0
  | .cell a => a

/-! ## Validation -/

/-- Checks run in the order written, and the first that fails raises (R14). -/
def firstFailure : List (Bool × InvalidArgument) → Option InvalidArgument
  | [] => none
  | (fails, e) :: rest => if fails then some e else firstFailure rest

end Sys2Proof.Machine
end

