-- ==== Sys2Proof/Machine/CrcEngine.lean ====
section
/-! DEFINITION. The CrcEngine unit (40_crc): the table ROM and the CRC-32 of a byte sequence. -/

namespace Sys2Proof.Machine

/-- One of the eight iterations of R100: the shift comes before the XOR. -/
def crcTableStep (c : Word) : Word := if c.getLsbD 0 then (c >>> 1) ^^^ Config.crcPoly else c >>> 1

/-- `n` iterations of R100. -/
def crcTableSteps : Nat → Word → Word
  | 0, c => c
  | n + 1, c => crcTableSteps n (crcTableStep c)

/-- `Table(i)` (R100), the ROM of 10_state R41. -/
def crcTable (i : Byte) : Word := crcTableSteps 8 (i.setWidth 32)

/-- The accumulator takes in one byte (R101): `c <- (c >> 8) XOR Table((c XOR zext_32(b)) AND 0xFF)`. -/
def crcUpdate (c : Word) (b : Byte) : Word := (c >>> 8) ^^^ crcTable (((c ^^^ b.setWidth 32) &&& 0xFF#32).setWidth 8)

/-- The start value of every CRC (R101). -/
def crcStart : Word := 0xFFFFFFFF#32

/-- The accumulator after a byte sequence: a left fold (R101). -/
def crcFoldBytes (c : Word) (bs : List Byte) : Word := bs.foldl crcUpdate c

/-- `crc32(s)` of R101. -/
def crc32 (bs : List Byte) : Word := ~~~(crcFoldBytes crcStart bs)

end Sys2Proof.Machine
end

