-- ==== Sys2Proof/Machine/Ops.lean ====
section
/-! DEFINITION. The shared operations of 44_system and 60_exceptions: start, completion, error completion (the block's
taking of an exception), the engine's events, and running a command. -/

namespace Sys2Proof.Machine

/-- `start(w)` of R141. The model also notes MEM as it stands, for R178 (log 10). -/
def start (w : Word) (s : State) : State :=
  (s.setStatus (statusStart w s.status)).setEngine
    { s.engine with phase := .run, op := w, validated := false, pending := [], before := s.mem }

/-- The engine goes IDLE with nothing pending (R143, R152). -/
def engineIdle (e : Engine) : Engine := { e with phase := .idle, validated := false, pending := [], before := [] }

/-- `complete(crc_result, xfer)` of R143. -/
def complete (crcResult : Option Word) (xfer : Word) (s : State) : State :=
  (((s.setCrcResult (crcResult.getD s.crcResult)).setXferCount xfer).setStatus (statusComplete s.status)).setEngine
    (engineIdle s.engine)

/-- `error_complete(code)` of R152: the error is recorded in STATUS, and no handler is entered (R158). -/
def errorComplete (e : InvalidArgument) (s : State) : State :=
  ((s.setXferCount 0#32).setStatus (statusError e s.status)).setEngine (engineIdle s.engine)

/-- `ignored_write()` of R144. -/
def ignoredWrite (s : State) : State := s.setStatus (statusIgnoredWrite s.status)

/-- The host acknowledges by a W1C write to STATUS (R24, R156): the block's only return from an error. -/
def acknowledge (v : Word) (s : State) : State := s.setStatus (statusW1C v s.status)

/-- One OUT transfer (R57, R58). -/
def emitByte (b : Byte) (last : Bool) (s : State) : State := s.setOut (s.out ++ [⟨b, last⟩])

/-- The accumulator takes a value. -/
def setCrc (c : Word) (s : State) : State := s.setEngine { s.engine with crc := c }

/-- What is still to be done takes a value. -/
def setPending (rest : List EngineEvent) (s : State) : State := s.setEngine { s.engine with pending := rest }

/-- An engine event that uses a source's byte: it faults when the cell is unwritten (R51). -/
def withByte (src : ByteSource) (s : State) (k : Byte → State) : Host.Outcome State Fault Refusal :=
  match sourceByte s.mem src with
  | some b => .next (k b)
  | none => .fault (.unwrittenRead (sourceAddr src))

/-- The engine performs one event of the effect or completion phase; `rest` is what it has to do after it (R142). -/
def perform (ev : EngineEvent) (rest : List EngineEvent) (s : State) : Host.Outcome State Fault Refusal :=
  match ev with
  | .crcInit => .next (setPending rest (setCrc crcStart s))
  | .crcFold src => withByte src s fun b => setPending rest (setCrc (crcUpdate s.engine.crc b) s)
  | .emit src fold => withByte src s fun b =>
      setPending rest (emitByte b false (if fold then setCrc (crcUpdate s.engine.crc b) s else s))
  | .emitCrc k last => .next (setPending rest (emitByte (be4Byte (~~~s.engine.crc) k) last s))
  | .store dst src => withByte src s fun b => setPending rest (s.setMem (memPut s.mem dst b))
  | .complete crc xfer => .next (complete (if crc then some (~~~s.engine.crc) else none) xfer s)

/-- The event is an OUT transfer, which waits for the consumer (R58). -/
def isEmission : EngineEvent → Bool
  | .emit _ _ => true
  | .emitCrc _ _ => true
  | .crcInit => false
  | .crcFold _ => false
  | .store _ _ => false
  | .complete _ _ => false

/-- The engine performs its events one after the other, until the last one or until an OUT transfer has to wait for the
consumer (R58, R142). -/
def performAll : List EngineEvent → State → Host.Outcome State Fault Refusal
  | [], s => .next s
  | ev :: rest, s =>
    if isEmission ev && !s.consumerReady then .next s
    else
      match perform ev rest s with
      | .next t => performAll rest t
      | .fault f => .fault f
      | .refused r => .refused r

/-- The engine goes on with its command as far as it can by itself. -/
def drain (s : State) : Host.Outcome State Fault Refusal := performAll s.engine.pending s

/-- The validation phase after decode (R142): the first check that fails ends the command with its error (R152), else
the engine has the command's events before it. It reads argument registers only and has no other effect. -/
def beginCommand (checks : List (Bool × InvalidArgument)) (events : List EngineEvent) (s : State) : State :=
  match firstFailure checks with
  | some e => errorComplete e s
  | none => s.setEngine { s.engine with validated := true, pending := events }

/-- A command from its validation on, with no other agent's event in between, until it ends or waits for the consumer
(R142, log 2). -/
def runCommand (checks : List (Bool × InvalidArgument)) (events : List EngineEvent) (s : State) :
    Host.Outcome State Fault Refusal :=
  drain (beginCommand checks events s)

end Sys2Proof.Machine
end

