-- ==== Sys2Proof/Machine/System.lean ====
section
/-! DEFINITION. The NOP command (44_system R145). -/

namespace Sys2Proof.Machine

/-- R145, R153: no check after decode. -/
def nopChecks (_memSize : Nat) (_r : Regs) : List (Bool × InvalidArgument) := []

/-- R145: `complete(xfer = 0)`. -/
def nopEvents (_r : Regs) : List EngineEvent := [.complete false 0#32]

/-- **NOP** (R145). -/
def execNop (s : State) : Host.Outcome State Fault Refusal :=
  runCommand (nopChecks s.memSize s.regs) (nopEvents s.regs) s

end Sys2Proof.Machine
end

