-- ==== Sys2Proof/Machine/Crc.lean ====
section
/-! DEFINITION. The CRC command (40_crc R103). -/

namespace Sys2Proof.Machine

/-- R103, R153: the source range. -/
def crcChecks (memSize : Nat) (r : Regs) : List (Bool × InvalidArgument) :=
  [(!rangeValid memSize r.srcAddr.toNat r.srcLen.toNat, .range)]

/-- R103: `c <- crc32(MemRead(SRC_ADDR, SRC_LEN)); complete(crc_result = c, xfer = 0)`. -/
def crcEvents (r : Regs) : List EngineEvent :=
  [.crcInit] ++ (cells r.srcAddr.toNat r.srcLen.toNat).map .crcFold ++ [.complete true 0#32]

/-- **CRC** (R103). -/
def execCrc (s : State) : Host.Outcome State Fault Refusal :=
  runCommand (crcChecks s.memSize s.regs) (crcEvents s.regs) s

end Sys2Proof.Machine
end

