-- ==== Sys2Proof/Machine/Chunk.lean ====
section
/-! DEFINITION. The ChunkWriter unit and the CHUNK command (41_chunk). -/

namespace Sys2Proof.Machine

/-- `Frame(tag, data)` (R110). -/
def frame (tag data : List Byte) : List Byte :=
  be4 (BitVec.ofNat 32 data.length) ++ tag ++ data ++ be4 (crc32 (tag ++ data))

/-- The engine's events for a frame, streamed (R110, R111, R136): the length field is outside the CRC, tag and data are
folded into it as they are emitted. `last` is the marker on the final CRC byte (R57). -/
def frameEvents (tag data : List ByteSource) (last : Bool) : List EngineEvent :=
  (consts (be4 (BitVec.ofNat 32 data.length))).map (.emit · false) ++ [.crcInit] ++ tag.map (.emit · true) ++
    data.map (.emit · true) ++ [.emitCrc 0 false, .emitCrc 1 false, .emitCrc 2 false, .emitCrc 3 last]

/-- R112, R153: the tag length, the tag range, the data range. -/
def chunkChecks (memSize : Nat) (r : Regs) : List (Bool × InvalidArgument) :=
  [(r.tagLen != 4#32, .badTagLen),
   (!rangeValid memSize r.tagAddr.toNat 4, .range),
   (!rangeValid memSize r.srcAddr.toNat r.srcLen.toNat, .range)]

/-- R112: `Emit(Frame(tag, data)); complete(crc_result = c, xfer = (12 + SRC_LEN) mod 2^32)`. -/
def chunkEvents (r : Regs) : List EngineEvent :=
  frameEvents (cells r.tagAddr.toNat 4) (cells r.srcAddr.toNat r.srcLen.toNat) true ++
    [.complete true (12#32 + r.srcLen)]

/-- **CHUNK** (R112). -/
def execChunk (s : State) : Host.Outcome State Fault Refusal :=
  runCommand (chunkChecks s.memSize s.regs) (chunkEvents s.regs) s

end Sys2Proof.Machine
end

