-- ==== Sys2Proof/Machine/Scanline.lean ====
section
/-! DEFINITION. The ScanlineSerializer unit and the SCANLINE command (42_scanline). -/

namespace Sys2Proof.Machine

/-- Row `r` of the layout (R120): the filter byte 0 and the row's `3W` pixel bytes. -/
def scanRow (p : List Byte) (w r : Nat) : List Byte := 0#8 :: (p.drop (r * (3 * w))).take (3 * w)

/-- `Scan(p, W, H)` (R120). -/
def scan (p : List Byte) (w h : Nat) : List Byte := (List.range h).flatMap (scanRow p w)

/-- `N`, the length of the layout: `H + L` of R122, exact. -/
def scanLen (r : Regs) : Nat := r.height.toNat + r.srcLen.toNat

/-- Where byte `k` of the layout comes from: the index form of R120. -/
def scanSource (src w k : Nat) : ByteSource :=
  if k % (3 * w + 1) = 0 then .const 0#8
  else .cell (src + k / (3 * w + 1) * (3 * w) + (k % (3 * w + 1) - 1))

/-- The sources of the whole layout, in order. -/
def scanSources (r : Regs) : List ByteSource :=
  (List.range (scanLen r)).map (scanSource r.srcAddr.toNat r.width.toNat)

/-- `ValidateImage(W, H, L)` (R122), in exact arithmetic (R124). -/
def imageChecks (r : Regs) : List (Bool × InvalidArgument) :=
  [(r.width == 0#32 || r.height == 0#32, .zeroDim),
   (r.srcLen.toNat != r.width.toNat * r.height.toNat * 3, .pixelLen),
   (decide (0xFFFFFFFF < scanLen r), .lenOverflow)]

/-- R123, R153: the image, the source range, the destination range, their overlap. -/
def scanlineChecks (memSize : Nat) (r : Regs) : List (Bool × InvalidArgument) :=
  imageChecks r ++
  [(!rangeValid memSize r.srcAddr.toNat r.srcLen.toNat, .range),
   (!rangeValid memSize r.dstAddr.toNat (scanLen r), .range),
   (rangesOverlap r.srcAddr.toNat r.srcLen.toNat r.dstAddr.toNat (scanLen r), .overlap)]

/-- R123: `MemWrite(DST_ADDR, N, Scan(p, W, H)); complete(xfer = N)`, in ascending addresses (R56). -/
def scanlineEvents (r : Regs) : List EngineEvent :=
  ((List.range (scanLen r)).map fun k =>
    .store (r.dstAddr.toNat + k) (scanSource r.srcAddr.toNat r.width.toNat k)) ++
    [.complete false (BitVec.ofNat 32 (scanLen r))]

/-- **SCANLINE** (R123). -/
def execScanline (s : State) : Host.Outcome State Fault Refusal :=
  runCommand (scanlineChecks s.memSize s.regs) (scanlineEvents s.regs) s

end Sys2Proof.Machine
end

