-- ==== Sys2Proof/Machine/Encode.lean ====
section
/-! DEFINITION. The PngEncoder unit and the ENCODE command (43_encode). -/

namespace Sys2Proof.Machine

/-- `SIG` (R130). -/
def pngSignature : List Byte := [0x89#8, 0x50#8, 0x4E#8, 0x47#8, 0x0D#8, 0x0A#8, 0x1A#8, 0x0A#8]

/-- The tag "IHDR" (R114, log 21). -/
def tagIHDR : List Byte := [0x49#8, 0x48#8, 0x44#8, 0x52#8]

/-- The tag "IDAT" (R114). -/
def tagIDAT : List Byte := [0x49#8, 0x44#8, 0x41#8, 0x54#8]

/-- The tag "IEND" (R114). -/
def tagIEND : List Byte := [0x49#8, 0x45#8, 0x4E#8, 0x44#8]

/-- `IHDRp(W, H)` (R131). -/
def ihdrPayload (w h : Word) : List Byte := be4 w ++ be4 h ++ [0x08#8, 0x02#8, 0x00#8, 0x00#8, 0x00#8]

/-- `PNG(p, W, H)` (R132). -/
def png (p : List Byte) (w h : Word) : List Byte :=
  pngSignature ++ frame tagIHDR (ihdrPayload w h) ++ frame tagIDAT (scan p w.toNat h.toNat) ++ frame tagIEND []

/-- R133, R153: the image, the source range. -/
def encodeChecks (memSize : Nat) (r : Regs) : List (Bool × InvalidArgument) :=
  imageChecks r ++ [(!rangeValid memSize r.srcAddr.toNat r.srcLen.toNat, .range)]

/-- R133: signature, IHDR, IDAT, IEND, then `complete(xfer = (57 + N) mod 2^32)`. It streams and writes no MEM (R136). -/
def encodeEvents (r : Regs) : List EngineEvent :=
  (consts pngSignature).map (.emit · false) ++
    frameEvents (consts tagIHDR) (consts (ihdrPayload r.width r.height)) false ++
    frameEvents (consts tagIDAT) (scanSources r) false ++
    frameEvents (consts tagIEND) [] true ++
    [.complete false (BitVec.ofNat 32 (57 + scanLen r))]

/-- **ENCODE** (R133). -/
def execEncode (s : State) : Host.Outcome State Fault Refusal :=
  runCommand (encodeChecks s.memSize s.regs) (encodeEvents s.regs) s

end Sys2Proof.Machine
end

