-- ==== Sys2Proof/Machine/Dispatch.lean ====
section
/-! DEFINITION. One arm per constructor of Instr, each the instruction's meaning. -/

namespace Sys2Proof.Machine

def exec (i : Instr) (s : State) : Host.Outcome State Fault Refusal :=
  match i with
  | .nop => Sys2Proof.Machine.execNop s
  | .crc => Sys2Proof.Machine.execCrc s
  | .chunk => Sys2Proof.Machine.execChunk s
  | .scanline => Sys2Proof.Machine.execScanline s
  | .encode => Sys2Proof.Machine.execEncode s

end Sys2Proof.Machine
end

