-- ==== Sys2Proof/Machine/Commands.lean ====
section
/-! DEFINITION. What each command checks, does and touches, by instruction: for the engine's single events and for the
hazards of 70_reset R171, R177, R178. -/

namespace Sys2Proof.Machine

/-- The command's checks after decode (R153). -/
def checksOf (i : Instr) (memSize : Nat) (r : Regs) : List (Bool × InvalidArgument) :=
  match i with
  | .nop => nopChecks memSize r
  | .crc => crcChecks memSize r
  | .chunk => chunkChecks memSize r
  | .scanline => scanlineChecks memSize r
  | .encode => encodeChecks memSize r

/-- The command's effect and completion events (R142). -/
def eventsOf (i : Instr) (r : Regs) : List EngineEvent :=
  match i with
  | .nop => nopEvents r
  | .crc => crcEvents r
  | .chunk => chunkEvents r
  | .scanline => scanlineEvents r
  | .encode => encodeEvents r

/-- The error a command's own checks raise, if any (R153). -/
def raises (i : Instr) (s : State) : Option InvalidArgument := firstFailure (checksOf i s.memSize s.regs)

/-- The MEM ranges a command reads (R55). -/
def readRanges (i : Instr) (r : Regs) : List (Nat × Nat) :=
  match i with
  | .nop => []
  | .crc => [(r.srcAddr.toNat, r.srcLen.toNat)]
  | .chunk => [(r.tagAddr.toNat, 4), (r.srcAddr.toNat, r.srcLen.toNat)]
  | .scanline => [(r.srcAddr.toNat, r.srcLen.toNat)]
  | .encode => [(r.srcAddr.toNat, r.srcLen.toNat)]

/-- The MEM ranges a command writes (R56): `(DST_ADDR, N)` for SCANLINE, with `N = H + L` (R122). Where `ValidateImage`
raises and so returns no `N`, the same sum is taken (DESIGN CHOICE, log 8). -/
def writeRanges (i : Instr) (r : Regs) : List (Nat × Nat) :=
  match i with
  | .nop => []
  | .crc => []
  | .chunk => []
  | .scanline => [(r.dstAddr.toNat, scanLen r)]
  | .encode => []

/-- The command that is running, whether or not its checks pass. An illegal word is none, and names no range (R157). -/
def runningCommand (s : State) : Option Instr :=
  if s.busy then
    match decode s.engine.op with
    | .ok i => some i
    | .error _ => none
  else none

/-- The destination that the running command names (R171). -/
def runningDestination (s : State) : List (Nat × Nat) :=
  match runningCommand s with
  | some i => writeRanges i s.regs
  | none => []

/-- The ranges that the running command has a new value for (R178): none when it raises, since it then writes no cell
(R142, log 7). -/
def runningWrites (s : State) : List (Nat × Nat) :=
  match runningCommand s with
  | some i => if (raises i s).isNone then writeRanges i s.regs else []
  | none => []

/-- The ranges that R177 names for the running command, whether or not its checks pass. -/
def runningRanges (s : State) : List (Nat × Nat) :=
  match runningCommand s with
  | some i => readRanges i s.regs ++ writeRanges i s.regs
  | none => []

end Sys2Proof.Machine
end

