-- ==== Sys2Proof/Machine/Host.lean ====
section
/-! DEFINITION. The host's accesses (44_system R140, R144, R146, R147; 10_state R20 to R37; 20_memory R52). -/

namespace Sys2Proof.Machine

/-- The seven argument registers (R38). -/
inductive ArgReg where
  | srcAddr
  | srcLen
  | dstAddr
  | tagAddr
  | tagLen
  | width
  | height
  deriving DecidableEq, Repr

/-- What stands at an offset of the register window (R20). -/
inductive RegName where
  | id
  | ctrl
  | status
  | cmd
  | arg (a : ArgReg)
  | crcResult
  | xferCount
  | crcTable (i : Byte)
  | unmapped
  deriving DecidableEq, Repr

/-- R37: a register access goes to offset `addr[11:2] * 4`; the platform decodes the bits above. -/
def regOffset (addr : Word) : Nat := (addr.extractLsb' 2 10).toNat * 4

/-- The register map (R20, R35, R36). -/
def regAtOffset (o : Nat) : RegName :=
  if o = 0x000 then .id
  else if o = 0x004 then .ctrl
  else if o = 0x008 then .status
  else if o = 0x00C then .cmd
  else if o = 0x010 then .arg .srcAddr
  else if o = 0x014 then .arg .srcLen
  else if o = 0x018 then .arg .dstAddr
  else if o = 0x01C then .arg .tagAddr
  else if o = 0x020 then .arg .tagLen
  else if o = 0x024 then .arg .width
  else if o = 0x028 then .arg .height
  else if o = 0x02C then .crcResult
  else if o = 0x030 then .xferCount
  else if 0x400 ≤ o ∧ o < 0x800 then .crcTable (BitVec.ofNat 8 ((o - 0x400) / 4))
  else .unmapped

/-- The register a host address selects. -/
def regAt (addr : Word) : RegName := regAtOffset (regOffset addr)

/-- An argument register's value (R38). -/
def getArg (r : Regs) : ArgReg → Word
  | .srcAddr => r.srcAddr
  | .srcLen => r.srcLen
  | .dstAddr => r.dstAddr
  | .tagAddr => r.tagAddr
  | .tagLen => r.tagLen
  | .width => r.width
  | .height => r.height

/-- An argument register takes a value: all 32 bits (R26 to R32, R37). -/
def setArg (r : Regs) (a : ArgReg) (v : Word) : Regs :=
  match a with
  | .srcAddr => { r with srcAddr := v }
  | .srcLen => { r with srcLen := v }
  | .dstAddr => { r with dstAddr := v }
  | .tagAddr => { r with tagAddr := v }
  | .tagLen => { r with tagLen := v }
  | .width => { r with width := v }
  | .height => { r with height := v }

/-- The value a host read of a register returns (R20 to R36, R146). -/
def regValue (n : RegName) (s : State) : Word :=
  match n with
  | .id => Config.idValue
  | .ctrl => ctrlWord s.ie
  | .status => statusWord s.busy s.status
  | .cmd => 0#32
  | .arg a => getArg s.regs a
  | .crcResult => s.crcResult
  | .xferCount => s.xferCount
  | .crcTable i => crcTable i
  | .unmapped => 0#32

/-- The host has been given a value (log 11). -/
def hostGets (d : HostData) (s : State) : State := s.setHostReads (s.hostReads ++ [d])

/-- A host register read (R146): no side effect. -/
def hostRegRead (addr : Word) (s : State) : State := hostGets (.word (regValue (regAt addr) s)) s

/-- A host register write, by the register it goes to (R147). -/
def regWrite (n : RegName) (v : Word) (s : State) : State :=
  match n with
  | .id => s
  | .ctrl => s.setIe (v.getLsbD 0)
  | .status => acknowledge v s
  | .cmd => if s.busy then ignoredWrite s else start v s
  | .arg a => if s.busy then ignoredWrite s else s.setRegs (setArg s.regs a v)
  | .crcResult => s
  | .xferCount => s
  | .crcTable _ => s
  | .unmapped => s

/-- A host register write at an address (R147). -/
def hostRegWrite (addr v : Word) (s : State) : State := regWrite (regAt addr) v s

/-- A host read of a cell that holds `v`, or of an unwritten cell (R52, 93 U1). -/
def hostGetsCell (a : Nat) (v : Option Byte) (s : State) : Host.Outcome State Fault Refusal :=
  match v with
  | some b => .next (hostGets (.byte b) s)
  | none => .fault (.unwrittenRead a)

/-- The value that SCANLINE writes to cell `a` of its destination (R120, R123), from the source as it stands. -/
def scanlineNewByte (s : State) (a : Nat) : Option Byte :=
  sourceByte s.mem (scanSource s.regs.srcAddr.toNat s.regs.width.toNat (a - s.regs.dstAddr.toNat))

/-- The value a cell held before the running command (R178). -/
def oldByte (s : State) (a : Nat) : Option Byte := memGet s.engine.before a

/-- A host MEM read of one byte (R52, R178). A cell that the running SCANLINE writes gives its new or its old value, by
a free choice for each read (93 U3, log 5); one that will raise has no new value for it (log 7). -/
def hostMemRead (addr : Word) (s : State) : Host.Outcome State Fault Refusal :=
  let a := addr.toNat
  if s.memSize ≤ a then .next (hostGets (.byte 0#8) s)
  else if (runningWrites s).any (inRange · a) then
    hostGetsCell a (if Config.dstReadNew s.draws then scanlineNewByte s a else oldByte s a) (s.setDraws (s.draws + 1))
  else hostGetsCell a (memGet s.mem a) s

/-- A host MEM write of one byte (R52). One under the running command is a hazard (R177, 93 U2). -/
def hostMemWrite (addr : Word) (b : Byte) (s : State) : Host.Outcome State Fault Refusal :=
  let a := addr.toNat
  if s.memSize ≤ a then .next s
  else if (runningRanges s).any (inRange · a) then .fault (.hostWriteHazard a)
  else .next (s.setMem (memPut s.mem a b))

/-- One round of the host's `poll` loop (R80): it reads STATUS; when bit 1 is 0 it will read again, after the engine's
next event (log 16). The event has been taken off `inputs`. -/
def hostPoll (s : State) : State :=
  let t := hostGets (.word (regValue .status s)) s
  if s.status.done then t else t.setInputs (.engine :: .poll :: t.inputs)

end Sys2Proof.Machine
end

