-- ==== Sys2Proof/Machine/Reset.lean ====
section
/-! DEFINITION. Reset and power-on as events (70_reset R170 to R173). -/

namespace Sys2Proof.Machine

/-- The ranges become unwritten. -/
def eraseRanges (m : Memory) (rs : List (Nat × Nat)) : Memory := rs.foldl (fun m r => memErase m r.1 r.2) m

/-- What R170 sets: every register, the engine. -/
def resetRegisters (s : State) : State :=
  { s with
    ie := false
    status := Status.reset
    regs := Regs.reset
    crcResult := 0#32
    xferCount := 0#32
    engine := Engine.reset }

/-- A reset other than power-on (R170, R171, R173): OUT keeps what the consumer accepted, MEM is kept but for the
destination of a busy SCANLINE, which becomes unwritten whether or not its checks pass (log 8). -/
def warmReset (s : State) : State := (resetRegisters s).setMem (eraseRanges s.mem (runningDestination s))

/-- Power-on (R172): every cell unwritten, OUT empty. What is not the block's own stays (log 18). -/
def powerOn (s : State) : State := ((resetRegisters s).setMem []).setOut []

end Sys2Proof.Machine
end

