-- ==== Sys2Proof/Machine/Engine.lean ====
section
/-! DEFINITION. The engine's and the consumer's events, and the next event of the schedule (44_system R142, R149). -/

namespace Sys2Proof.Machine

/-- The validation event of a running command (R142, log 13): decode, then the command's own checks. -/
def validateEvent (s : State) : State :=
  match decode s.engine.op with
  | .ok i => beginCommand (checksOf i s.memSize s.regs) (eventsOf i s.regs) s
  | .error _ => errorComplete .illegalCmd s

/-- The engine performs its next pending event, when `go`; an OUT transfer with `go` false waits. -/
def pendingEvent (go : Bool) (s : State) : Host.Outcome State Fault Refusal :=
  match s.engine.pending with
  | [] => .next s
  | ev :: rest => if isEmission ev && !go then .next s else perform ev rest s

/-- The engine's next event (R149): none when it is idle or waits for the consumer. -/
def engineEvent (s : State) : Host.Outcome State Fault Refusal :=
  match s.engine.phase with
  | .idle => .next s
  | .run => if s.engine.validated then pendingEvent s.consumerReady s else .next (validateEvent s)

/-- The engine goes on until the command ends or waits for the consumer. A command that has not been validated is decoded
and run as a whole. -/
def engineRun (s : State) : Host.Outcome State Fault Refusal :=
  match s.engine.phase with
  | .idle => .next s
  | .run =>
    if s.engine.validated then drain s
    else
      match decode s.engine.op with
      | .ok i => exec i s
      | .error _ => .next (errorComplete .illegalCmd s)

/-- The engine offers a byte to the consumer (R149). -/
def offers (s : State) : Bool :=
  s.busy && s.engine.validated && (s.engine.pending.head?.map isEmission).getD false

/-- The consumer accepts the byte the engine offers (R58, R149); without an offer there is nothing to accept (log 17). -/
def acceptEvent (s : State) : Host.Outcome State Fault Refusal :=
  if offers s then pendingEvent true s else .next s

/-- One scheduled event, already taken off `inputs` (R149). -/
def performEvent (e : Event) (s : State) : Host.Outcome State Fault Refusal :=
  match e with
  | .hostRead addr => .next (hostRegRead addr s)
  | .hostWrite addr v => .next (hostRegWrite addr v s)
  | .memRead addr => hostMemRead addr s
  | .memWrite addr b => hostMemWrite addr b s
  | .poll => .next (hostPoll s)
  | .engine => engineEvent s
  | .run => engineRun s
  | .accept => acceptEvent s
  | .consumer ready => .next (s.setConsumerReady ready)
  | .reset => .next (warmReset s)
  | .powerOn => .next (powerOn s)

/-- The machine moves: the next scheduled event, or, when none is scheduled, the engine goes on (R149, R183, log 1). -/
def advance (s : State) : Host.Outcome State Fault Refusal :=
  match s.inputs with
  | [] => engineRun s
  | e :: rest => performEvent e (s.setInputs rest)

/-- The command word `w` stands where the engine takes its next command from, with no event before it: `start(w)` has
happened (R141), and what was scheduled comes after the engine's run (log 14). -/
def placeCommand (w : Word) (s : State) : State :=
  (start w s).setInputs (match s.inputs with | [] => [] | l => .run :: l)

end Sys2Proof.Machine
end

