-- ==== Sys2Proof/Machine/Platform.lean ====
section
/-! DEFINITION. The platform around the block (20_memory R62; 60_exceptions R160, R166): its OPEN parameters are
arguments here, and no rule of the block depends on them (log 19). -/

namespace Sys2Proof.Machine

/-- A host bus access at a host address. -/
inductive BusAccess where
  | readWord (addr : Nat)
  | writeWord (addr : Nat) (value : Word)
  | readByte (addr : Nat)
  | writeByte (addr : Nat) (value : Byte)
  deriving DecidableEq, Repr

/-- The offset of a host address in a window of `size` bytes at `base`. -/
def windowOffset (base size addr : Nat) : Option Word :=
  if base ≤ addr ∧ addr < base + size then some (BitVec.ofNat 32 (addr - base)) else none

/-- R62: the block's event for a host bus access, or none when the access goes elsewhere. The register window has 4096
bytes (R20); MEM has `memSize`. -/
def busEvent (p : Config.Platform) (memSize : Nat) (a : BusAccess) : Option Event :=
  match a with
  | .readWord addr => (windowOffset p.regBase 4096 addr).map .hostRead
  | .writeWord addr v => (windowOffset p.regBase 4096 addr).map (.hostWrite · v)
  | .readByte addr => (windowOffset p.memBase memSize addr).map .memRead
  | .writeByte addr v => (windowOffset p.memBase memSize addr).map (.memWrite · v)

/-- R160: the level of interrupt line `line`, as far as this block drives it. -/
def irqLine (p : Config.Platform) (s : State) (line : Nat) : Bool := line == p.irqRoute && s.irq

/-- R166: instance `k` of `NUM_INSTANCES` blocks steps; the others share nothing with it. The free choices of two blocks
are independent only as far as their counters `draws` differ (log 22). -/
def stepInstance (k : Nat) (blocks : List State) : Host.Outcome (List State) Fault Refusal :=
  match blocks[k]? with
  | none => .next blocks
  | some s =>
    match step s with
    | .next t => .next (blocks.set k t)
    | .fault f => .fault f
    | .refused r => .refused r

end Sys2Proof.Machine
end

