-- ==== Sys2Proof/Machine/Script.lean ====
section
/-! DEFINITION. Host scripts (30_encoding R80 to R82): the lines, their host transactions, the pseudo-instructions and the
assertions. -/

namespace Sys2Proof.Machine

/-- The registers a script names: the listed registers of R20, the entries of the CRC table among them. -/
inductive ScriptReg where
  | id
  | ctrl
  | status
  | cmd
  | arg (a : ArgReg)
  | crcResult
  | xferCount
  | crcTable (i : Byte)
  deriving DecidableEq, Repr

/-- An assertion about the end state; no transaction (R80). -/
inductive Expectation where
  | reg (n : ScriptReg) (value : Word)
  | mem (a : Nat) (bytes : List Byte)
  | memUnwritten (a n : Nat)
  | out (bytes : List Byte)
  | irq (level : Bool)
  deriving DecidableEq, Repr

/-- A line of a host script (R80). -/
inductive ScriptLine where
  | wr (n : ScriptReg) (value : Word)
  | rd (n : ScriptReg)
  | cmd (i : Instr)
  | poll
  | mem (a : Nat) (bytes : List Byte)
  | memText (a : Nat) (text : List Char)
  | expect (e : Expectation)
  deriving DecidableEq, Repr

/-- A pseudo-instruction (R82). -/
inductive Pseudo where
  | nop
  | crc (a n : Word)
  | chunk (t a n : Word)
  | scanline (s w h d : Word)
  | encode (s w h : Word)
  | clear
  deriving DecidableEq, Repr

/-- The offset of an argument register (R20). -/
def argOffset : ArgReg → Word
  | .srcAddr => 0x010#32
  | .srcLen => 0x014#32
  | .dstAddr => 0x018#32
  | .tagAddr => 0x01C#32
  | .tagLen => 0x020#32
  | .width => 0x024#32
  | .height => 0x028#32

/-- The offset of a named register (R20). -/
def scriptOffset : ScriptReg → Word
  | .id => 0x000#32
  | .ctrl => 0x004#32
  | .status => 0x008#32
  | .cmd => 0x00C#32
  | .arg a => argOffset a
  | .crcResult => 0x02C#32
  | .xferCount => 0x030#32
  | .crcTable i => BitVec.ofNat 32 (0x400 + 4 * i.toNat)

/-- `M <a+i> <bi>` for each byte in order, with `a + i` exact (R80, R9). An address of 2^32 or more is above every MEM_SIZE,
so R52 ignores the write; the 32-bit memory port has no event for it, and none stands here. -/
def memWrites (a : Nat) : List Byte → List Event
  | [] => []
  | b :: bs => (if a < 2 ^ 32 then [.memWrite (BitVec.ofNat 32 a) b] else []) ++ memWrites (a + 1) bs

/-- The ASCII code of a character (R114). Of a character that has none, the low 8 bits of its code point (DESIGN CHOICE,
log 23); `lineWellFormed` refuses a line with such a character. -/
def asciiCode (c : Char) : Byte := BitVec.ofNat 8 c.toNat

/-- The host transactions of a line (R80). -/
def lineEvents : ScriptLine → List Event
  | .wr n v => [.hostWrite (scriptOffset n) v]
  | .rd n => [.hostRead (scriptOffset n)]
  | .cmd i => [.hostWrite 0x00C#32 (Sys2Proof.encode i)]
  | .poll => [.poll]
  | .mem a bs => memWrites a bs
  | .memText a cs => memWrites a (cs.map asciiCode)
  | .expect _ => []

/-- The host transactions of a script, top to bottom (R80). -/
def scriptEvents (ls : List ScriptLine) : List Event := ls.flatMap lineEvents

/-- R80 gives a text only ASCII codes: a line whose text has any other character is refused (DESIGN CHOICE, log 23). -/
def lineWellFormed : ScriptLine → Bool
  | .wr _ _ => true
  | .rd _ => true
  | .cmd _ => true
  | .poll => true
  | .mem _ _ => true
  | .memText _ cs => cs.all fun c => decide (c.toNat < 128)
  | .expect _ => true

/-- The host transactions of a script, or none when a line of it is refused. -/
def issueScript (ls : List ScriptLine) : Option (List Event) :=
  if ls.all lineWellFormed then some (scriptEvents ls) else none

/-- R82: every computed value must fit in 32 bits. -/
def pseudoWellFormed : Pseudo → Bool
  | .nop => true
  | .crc _ _ => true
  | .chunk _ _ _ => true
  | .scanline _ w h _ => decide (w.toNat * h.toNat * 3 < 2 ^ 32)
  | .encode _ w h => decide (w.toNat * h.toNat * 3 < 2 ^ 32)
  | .clear => true

/-- The lines of a pseudo-instruction (R82). -/
def pseudoLines : Pseudo → List ScriptLine
  | .nop => [.cmd .nop, .poll]
  | .crc a n => [.wr (.arg .srcAddr) a, .wr (.arg .srcLen) n, .cmd .crc, .poll]
  | .chunk t a n => [.wr (.arg .tagAddr) t, .wr (.arg .tagLen) 4#32, .wr (.arg .srcAddr) a, .wr (.arg .srcLen) n,
      .cmd .chunk, .poll]
  | .scanline s w h d => [.wr (.arg .srcAddr) s, .wr (.arg .srcLen) (BitVec.ofNat 32 (w.toNat * h.toNat * 3)),
      .wr (.arg .width) w, .wr (.arg .height) h, .wr (.arg .dstAddr) d, .cmd .scanline, .poll]
  | .encode s w h => [.wr (.arg .srcAddr) s, .wr (.arg .srcLen) (BitVec.ofNat 32 (w.toNat * h.toNat * 3)),
      .wr (.arg .width) w, .wr (.arg .height) h, .cmd .encode, .poll]
  | .clear => [.wr .status 0x0000000E#32]

/-- The expansion of a pseudo-instruction, or none when the script writer refuses it (R82). -/
def expandPseudo (p : Pseudo) : Option (List ScriptLine) := if pseudoWellFormed p then some (pseudoLines p) else none

/-- The register value an assertion names (R80). -/
def scriptRegValue (n : ScriptReg) (s : State) : Word := regValue (regAt (scriptOffset n)) s

/-- An assertion holds of a state (R80). -/
def expectationHolds (e : Expectation) (s : State) : Bool :=
  match e with
  | .reg n v => scriptRegValue n s == v
  | .mem a bs => memRead s.mem a bs.length == some bs
  | .memUnwritten a n => (List.range n).all fun k => (memGet s.mem (a + k)).isNone
  | .out bs => s.out.map OutByte.byte == bs
  | .irq level => s.irq == level

end Sys2Proof.Machine
end

