-- ==== Sys2Proof/Safety.lean ====
section
/-! DEFINITION. What counts as a safe step, and the invariants of the block. -/

namespace Sys2Proof

open Sys2Proof.Machine

/-- The machine goes on: the step neither faults nor refuses. -/
def SafeStep (s : State) : Prop := ∃ t, step s = .next t

/-- `n` steps, stopping at the first that does not go on. -/
def runSteps : Nat → State → Host.Outcome State Fault Refusal
  | 0, s => .next s
  | n + 1, s =>
    match step s with
    | .next t => runSteps n t
    | .fault f => .fault f
    | .refused r => .refused r

/-- The bytes of one command's output as the consumer gets them: `last` is 1 on the final byte and 0 on every other
(R57). -/
def withLast (bs : List Byte) : List OutByte :=
  bs.dropLast.map (⟨·, false⟩) ++ (bs.getLast?.map (⟨·, true⟩)).toList

/-- MEM is in its canonical form and has no cell outside `0 .. MEM_SIZE-1` (R51, R53). -/
structure MemInv (s : State) : Prop where
  canonical : Memory.wf s.mem
  inside    : ∀ c ∈ s.mem, c.1 < s.memSize

/-- The invariants of STATUS that R23 lists. -/
structure StatusInv (s : State) : Prop where
  busy  : s.busy = true → s.status.done = false ∧ s.status.err = false ∧ s.status.errCode = 0#4
  clean : s.status.err = false → s.status.errCode = 0#4
  code  : s.status.err = true → 1 ≤ s.status.errCode.toNat ∧ s.status.errCode.toNat ≤ 7

/-- The engine's hidden state is that of an idle engine, of a command before its validation, or of a validated command
that still has the last events of its own list to do (R42, R142); LAST_OP shows bits 3:0 of the latched word (R42). -/
structure EngineInv (s : State) : Prop where
  lastOp  : s.status.lastOp = opField s.engine.op
  idle    : s.engine.phase = .idle → s.engine.validated = false ∧ s.engine.pending = []
  started : s.engine.phase = .run → s.engine.validated = false → s.engine.pending = []
  running : s.engine.phase = .run → s.engine.validated = true →
    ∃ i, decode s.engine.op = .ok i ∧ raises i s = none ∧ s.engine.pending ≠ [] ∧
      s.engine.pending <:+ eventsOf i s.regs

/-- The invariant of the block: it holds after reset and every step keeps it. -/
structure BlockInv (s : State) : Prop where
  mem    : MemInv s
  status : StatusInv s
  engine : EngineInv s

end Sys2Proof
end

