-- ==== Sys2Proof/Certificates/Slice0/Obligations.lean ====
section
/-! DEFINITION. The statements for the provers. `s.inputs` is the schedule of log 1: a statement about a host, consumer
or reset event has it as the next event; a statement about the engine going on has nothing scheduled. -/

open Sys2Proof Sys2Proof.Machine

/-! ## Encoding -/

/-- Every command's word decodes to the command (R72). -/
def Obligations.DecodeOfEncodeIsTheInstruction : Prop :=
  ∀ i : Instr, i.wellFormed = true → decode (encode i) = .ok i

/-- R72: each of the five words is a command's, and no other word is: the decoder compares all 32 bits. -/
def Obligations.OnlyTheTableWordsDecode : Prop :=
  ∀ (w : Word) (i : Instr), decode w = .ok i ↔ w = encode i

/-- R72's words, written out, decode to their commands. -/
def Obligations.TableWordsDecode : Prop :=
  decode 0x00000000#32 = .ok .nop ∧ decode 0x00000001#32 = .ok .crc ∧ decode 0x00000002#32 = .ok .chunk ∧
  decode 0x00000003#32 = .ok .scanline ∧ decode 0x00000004#32 = .ok .encode ∧
  decode 0x00000005#32 = .error .reservedOpcode ∧ decode 0x80000001#32 = .error .reservedBits

/-- R73: the decoder is total, and says of every word whether it is a command and, if not, why. -/
def Obligations.EveryWordIsACommandOrIllegal : Prop :=
  ∀ w : Word,
    (w.extractLsb' 4 28 ≠ 0#28 → decode w = .error .reservedBits) ∧
    (w.extractLsb' 4 28 = 0#28 →
      (w.extractLsb' 0 4 = 0x0#4 → decode w = .ok .nop) ∧ (w.extractLsb' 0 4 = 0x1#4 → decode w = .ok .crc) ∧
      (w.extractLsb' 0 4 = 0x2#4 → decode w = .ok .chunk) ∧ (w.extractLsb' 0 4 = 0x3#4 → decode w = .ok .scanline) ∧
      (w.extractLsb' 0 4 = 0x4#4 → decode w = .ok .encode) ∧
      (5 ≤ (w.extractLsb' 0 4).toNat → decode w = .error .reservedOpcode))

/-! ## The step -/

/-- A started command, with nothing scheduled or with the engine's run scheduled next, is decoded and its meaning is the
step. That one step performs the whole command is the model's choice (log 2), and so is that the engine goes on when
nothing is scheduled (log 1): R142 lets other agents' events fall between the engine's. -/
def Obligations.StepRunsTheDecodedCommand : Prop :=
  ∀ (s : State) (i : Instr) (rest : List Event),
    s.engine.phase = .run → s.engine.validated = false → decode s.engine.op = .ok i →
    (s.inputs = [] → step s = exec i s) ∧
    (s.inputs = .run :: rest → step s = exec i { s with inputs := rest })

/-- R157, R152: an illegal word ends with ILLEGAL_CMD, code 1, whichever way the engine comes to it. That decode and the
error completion are the engine's one next event is the model's choice (log 13). -/
def Obligations.IllegalWordEndsWithIllegalCmd : Prop :=
  ∀ (s : State) (e : DecodeReject) (rest : List Event),
    s.engine.phase = .run → s.engine.validated = false → decode s.engine.op = .error e →
    (s.inputs = [] ∨ s.inputs = .run :: rest ∨ s.inputs = .engine :: rest) →
    step s = .next { s with
      inputs := s.inputs.tail
      xferCount := 0#32
      status := { s.status with err := true, errCode := 1#4, done := true }
      engine := { s.engine with phase := .idle, validated := false, pending := [], before := [] } }

/-! ## Host register access -/

/-- R141: a CMD write while idle starts the command that the word encodes: DONE, ERR and ERR_CODE are cleared, LAST_OP
takes bits 3:0, the block is busy, irq falls, and nothing else of the block changes. -/
def Obligations.CmdWriteWhileIdleStarts : Prop :=
  ∀ (s : State) (addr w : Word) (rest : List Event),
    s.inputs = .hostWrite addr w :: rest → regOffset addr = 0x00C → s.engine.phase = .idle →
    ∃ t : State, step s = .next t ∧ t.busy = true ∧ t.irq = false ∧
      t = { s with
        inputs := rest
        status := { s.status with done := false, err := false, errCode := 0#4, lastOp := w.extractLsb' 0 4 }
        engine := { s.engine with phase := .run, op := w, validated := false, pending := [], before := s.mem } }

/-- R176, R144: while busy a write to CMD or to an argument register sets WIGN and changes nothing else. -/
def Obligations.WriteWhileBusyIsIgnored : Prop :=
  ∀ (s : State) (addr v : Word) (rest : List Event),
    s.inputs = .hostWrite addr v :: rest → s.engine.phase = .run →
    0x00C ≤ regOffset addr → regOffset addr ≤ 0x028 →
    step s = .next { s with inputs := rest, status := { s.status with wign := true } }

/-- R26 to R32, R147: while idle an argument register takes all 32 bits, and nothing else changes. -/
def Obligations.ArgumentWriteWhileIdle : Prop :=
  ∀ (s : State) (addr v : Word) (rest : List Event),
    s.inputs = .hostWrite addr v :: rest → s.engine.phase = .idle →
    (regOffset addr = 0x010 → step s = .next { s with inputs := rest, regs := { s.regs with srcAddr := v } }) ∧
    (regOffset addr = 0x014 → step s = .next { s with inputs := rest, regs := { s.regs with srcLen := v } }) ∧
    (regOffset addr = 0x018 → step s = .next { s with inputs := rest, regs := { s.regs with dstAddr := v } }) ∧
    (regOffset addr = 0x01C → step s = .next { s with inputs := rest, regs := { s.regs with tagAddr := v } }) ∧
    (regOffset addr = 0x020 → step s = .next { s with inputs := rest, regs := { s.regs with tagLen := v } }) ∧
    (regOffset addr = 0x024 → step s = .next { s with inputs := rest, regs := { s.regs with width := v } }) ∧
    (regOffset addr = 0x028 → step s = .next { s with inputs := rest, regs := { s.regs with height := v } })

/-- R22: a CTRL write sets IE from bit 0, busy or not, and changes nothing else. -/
def Obligations.CtrlWriteSetsIe : Prop :=
  ∀ (s : State) (addr v : Word) (rest : List Event),
    s.inputs = .hostWrite addr v :: rest → regOffset addr = 0x004 →
    step s = .next { s with inputs := rest, ie := v.getLsbD 0 }

/-- R24: a STATUS write clears the write-1-to-clear bits written 1, and ERR_CODE with ERR, busy or not. -/
def Obligations.StatusWriteClearsTheBitsWrittenOne : Prop :=
  ∀ (s : State) (addr v : Word) (rest : List Event),
    s.inputs = .hostWrite addr v :: rest → regOffset addr = 0x008 →
    step s = .next { s with
      inputs := rest
      status := {
        done := if v.getLsbD 1 then false else s.status.done
        err := if v.getLsbD 2 then false else s.status.err
        errCode := if v.getLsbD 2 then 0#4 else s.status.errCode
        wign := if v.getLsbD 3 then false else s.status.wign
        lastOp := s.status.lastOp } }

/-- R36: a write to a read-only register or to an unmapped offset is ignored and does not set WIGN; a read at an unmapped
offset returns 0 and has no other effect. -/
def Obligations.ReadOnlyAndUnmappedWritesAreIgnored : Prop :=
  ∀ (s : State) (addr v : Word) (rest : List Event),
    (s.inputs = .hostWrite addr v :: rest → (regOffset addr = 0x000 ∨ 0x02C ≤ regOffset addr) →
      step s = .next { s with inputs := rest }) ∧
    (s.inputs = .hostRead addr :: rest →
      (0x034 ≤ regOffset addr ∧ regOffset addr ≤ 0x3FC) ∨ 0x800 ≤ regOffset addr →
      step s = .next { s with inputs := rest, hostReads := s.hostReads ++ [.word 0#32] })

/-- R20 to R37, R146: what a host read returns at each offset; only the host's own record changes. -/
def Obligations.HostReadReturnsTheRegister : Prop :=
  ∀ (s : State) (addr : Word) (rest : List Event), s.inputs = .hostRead addr :: rest →
    ∃ v : Word,
      step s = .next { s with inputs := rest, hostReads := s.hostReads ++ [.word v] } ∧
      (regOffset addr = 0x000 → v = 0x4C420001#32) ∧
      (regOffset addr = 0x004 → v = if s.ie then 1#32 else 0#32) ∧
      (regOffset addr = 0x008 → v = statusWord s.busy s.status) ∧
      (regOffset addr = 0x00C → v = 0#32) ∧
      (regOffset addr = 0x010 → v = s.regs.srcAddr) ∧
      (regOffset addr = 0x014 → v = s.regs.srcLen) ∧
      (regOffset addr = 0x018 → v = s.regs.dstAddr) ∧
      (regOffset addr = 0x01C → v = s.regs.tagAddr) ∧
      (regOffset addr = 0x020 → v = s.regs.tagLen) ∧
      (regOffset addr = 0x024 → v = s.regs.width) ∧
      (regOffset addr = 0x028 → v = s.regs.height) ∧
      (regOffset addr = 0x02C → v = s.crcResult) ∧
      (regOffset addr = 0x030 → v = s.xferCount) ∧
      (0x034 ≤ regOffset addr → regOffset addr < 0x400 → v = 0#32) ∧
      (0x400 ≤ regOffset addr → regOffset addr < 0x800 → v = crcTable (BitVec.ofNat 8 ((regOffset addr - 0x400) / 4))) ∧
      (0x800 ≤ regOffset addr → v = 0#32)

/-- R37: bits 1:0 and the bits above 11 of a host register address do not matter, and offsets are multiples of 4 below
4096. -/
def Obligations.RegisterAddressBits : Prop :=
  ∀ addr : Word, regOffset addr = addr.toNat % 4096 / 4 * 4

/-- R23: where each field of STATUS stands; the reserved bits read 0. -/
def Obligations.StatusWordFields : Prop :=
  ∀ (busy : Bool) (st : Status),
    (statusWord busy st).getLsbD 0 = busy ∧ (statusWord busy st).getLsbD 1 = st.done ∧
    (statusWord busy st).getLsbD 2 = st.err ∧ (statusWord busy st).getLsbD 3 = st.wign ∧
    (statusWord busy st).extractLsb' 4 4 = 0#4 ∧ (statusWord busy st).extractLsb' 8 4 = st.errCode ∧
    (statusWord busy st).extractLsb' 12 4 = st.lastOp ∧ (statusWord busy st).extractLsb' 16 16 = 0#16

/-! ## CrcEngine -/

/-- R100: the corner values of the table. -/
def Obligations.CrcTableCornerValues : Prop :=
  crcTable 0#8 = 0x00000000#32 ∧ crcTable 1#8 = 0x77073096#32 ∧ crcTable 128#8 = 0xEDB88320#32 ∧
  crcTable 255#8 = 0x2D02EF8D#32

/-- R100: every entry of the CRC table: eight iterations, the shift before the XOR. -/
def Obligations.CrcTableIsEightIterations : Prop :=
  ∀ i : Byte,
    let f : Word → Word := fun c => if c.getLsbD 0 then (c >>> 1) ^^^ 0xEDB88320#32 else c >>> 1
    crcTable i = f (f (f (f (f (f (f (f (i.setWidth 32))))))))

/-- R101: the accumulator starts at 0xFFFFFFFF, takes in one byte after the other, and its complement is the result; so
feeding `s` and then `t` is feeding `s ++ t`. R102: the CRC of the empty sequence is 0. -/
def Obligations.CrcIsALeftFold : Prop :=
  crc32 [] = 0#32 ∧
  (∀ bs : List Byte, crc32 bs = ~~~(crcFoldBytes 0xFFFFFFFF#32 bs)) ∧
  (∀ c : Word, crcFoldBytes c [] = c) ∧
  (∀ (c : Word) (b : Byte) (bs : List Byte), crcFoldBytes c (b :: bs) =
    crcFoldBytes ((c >>> 8) ^^^ crcTable (((c ^^^ b.setWidth 32) &&& 0xFF#32).setWidth 8)) bs) ∧
  ∀ (c : Word) (s t : List Byte), crcFoldBytes c (s ++ t) = crcFoldBytes (crcFoldBytes c s) t

/-! ## The commands' results -/

/-- R145: NOP completes at once: XFER_COUNT is 0, DONE is 1, the engine is idle, and nothing else changes. -/
def Obligations.NopCompletes : Prop :=
  ∀ s : State, exec .nop s = .next { s with
    xferCount := 0#32
    status := { s.status with done := true }
    engine := { s.engine with phase := .idle, validated := false, pending := [], before := [] } }

/-- R103: CRC puts the CRC-32 of the source range in CRC_RESULT. The accumulator holds its complement; nothing else of
the block changes. It does not wait for the consumer. -/
def Obligations.CrcResultIsTheCrcOfTheRange : Prop :=
  ∀ (s : State) (data : List Byte),
    s.regs.srcLen = 0#32 ∨ s.regs.srcAddr.toNat + s.regs.srcLen.toNat ≤ s.memSize →
    memRead s.mem s.regs.srcAddr.toNat s.regs.srcLen.toNat = some data →
    exec .crc s = .next { s with
      crcResult := crc32 data
      xferCount := 0#32
      status := { s.status with done := true }
      engine := { s.engine with
        phase := .idle, validated := false, pending := [], before := [], crc := ~~~(crc32 data) } }

/-- R112: CHUNK emits `Frame(tag, data)`, the final byte marked `last`, and puts the frame's CRC in CRC_RESULT and the
number of bytes modulo 2^32 in XFER_COUNT. MEM and everything else of the block are unchanged. -/
def Obligations.ChunkEmitsTheFrame : Prop :=
  ∀ (s : State) (tag data : List Byte), s.consumerReady = true →
    s.regs.tagLen = 4#32 → s.regs.tagAddr.toNat + 4 ≤ s.memSize →
    s.regs.srcLen = 0#32 ∨ s.regs.srcAddr.toNat + s.regs.srcLen.toNat ≤ s.memSize →
    memRead s.mem s.regs.tagAddr.toNat 4 = some tag →
    memRead s.mem s.regs.srcAddr.toNat s.regs.srcLen.toNat = some data →
    exec .chunk s = .next { s with
      out := s.out ++ withLast (be4 s.regs.srcLen ++ tag ++ data ++ be4 (crc32 (tag ++ data)))
      crcResult := crc32 (tag ++ data)
      xferCount := BitVec.ofNat 32 (12 + s.regs.srcLen.toNat)
      status := { s.status with done := true }
      engine := { s.engine with
        phase := .idle, validated := false, pending := [], before := [], crc := ~~~(crc32 (tag ++ data)) } }

/-- R123: SCANLINE writes `Scan(p, W, H)` to `(DST_ADDR, N)` and puts N in XFER_COUNT. Every other cell and everything
else of the block are unchanged. -/
def Obligations.ScanlineWritesTheLayout : Prop :=
  ∀ (s : State) (p : List Byte),
    s.regs.width ≠ 0#32 → s.regs.height ≠ 0#32 →
    s.regs.srcLen.toNat = s.regs.width.toNat * s.regs.height.toNat * 3 →
    s.regs.height.toNat + s.regs.srcLen.toNat ≤ 0xFFFFFFFF →
    s.regs.srcAddr.toNat + s.regs.srcLen.toNat ≤ s.memSize →
    s.regs.dstAddr.toNat + (s.regs.height.toNat + s.regs.srcLen.toNat) ≤ s.memSize →
    (s.regs.dstAddr.toNat + (s.regs.height.toNat + s.regs.srcLen.toNat) ≤ s.regs.srcAddr.toNat ∨
      s.regs.srcAddr.toNat + s.regs.srcLen.toNat ≤ s.regs.dstAddr.toNat) →
    memRead s.mem s.regs.srcAddr.toNat s.regs.srcLen.toNat = some p →
    ∃ m : Memory,
      exec .scanline s = .next { s with
        mem := m
        xferCount := BitVec.ofNat 32 (s.regs.height.toNat + s.regs.srcLen.toNat)
        status := { s.status with done := true }
        engine := { s.engine with phase := .idle, validated := false, pending := [], before := [] } } ∧
      (∀ k, k < s.regs.height.toNat + s.regs.srcLen.toNat →
        memGet m (s.regs.dstAddr.toNat + k) = (scan p s.regs.width.toNat s.regs.height.toNat)[k]?) ∧
      (∀ a, (a < s.regs.dstAddr.toNat ∨ s.regs.dstAddr.toNat + (s.regs.height.toNat + s.regs.srcLen.toNat) ≤ a) →
        memGet m a = memGet s.mem a)

/-- R133: ENCODE emits exactly `PNG(p, WIDTH, HEIGHT)`, the final byte marked `last`, and puts the number of bytes modulo
2^32 in XFER_COUNT. The bytes of the tags IHDR, IDAT and IEND rest on log 21 (PRESUMED). CRC_RESULT, MEM and everything else of the block but the hidden accumulator are unchanged. -/
def Obligations.EncodeEmitsThePngStream : Prop :=
  ∀ (s : State) (p : List Byte), s.consumerReady = true →
    s.regs.width ≠ 0#32 → s.regs.height ≠ 0#32 →
    s.regs.srcLen.toNat = s.regs.width.toNat * s.regs.height.toNat * 3 →
    s.regs.height.toNat + s.regs.srcLen.toNat ≤ 0xFFFFFFFF →
    s.regs.srcAddr.toNat + s.regs.srcLen.toNat ≤ s.memSize →
    memRead s.mem s.regs.srcAddr.toNat s.regs.srcLen.toNat = some p →
    ∃ c : Word, exec .encode s = .next { s with
      out := s.out ++ withLast (png p s.regs.width s.regs.height)
      xferCount := BitVec.ofNat 32 (57 + (s.regs.height.toNat + s.regs.srcLen.toNat))
      status := { s.status with done := true }
      engine := { s.engine with phase := .idle, validated := false, pending := [], before := [], crc := c } }

/-- R58, R180: with a consumer that is not ready, a started CHUNK or ENCODE passes its checks and then waits, busy and
offering its first byte, with all its events before it; nothing has been emitted and nothing else of the block has changed.
That no MEM cell has been read before the first byte is accepted is the model's choice (log 12). -/
def Obligations.EmittingCommandsWaitForTheConsumer : Prop :=
  ∀ (s : State) (i : Instr), s.consumerReady = false → (i = .chunk ∨ i = .encode) → s.engine.phase = .run →
    s.engine.validated = false → decode s.engine.op = .ok i → raises i s = none →
    ∃ t : State, exec i s = .next t ∧ t.busy = true ∧ offers t = true ∧
      t = { s with engine := { s.engine with validated := true, pending := eventsOf i s.regs } }

/-! ## Errors -/

/-- Which error each command raises: the first check that fails, in exact arithmetic (R153; the checks are those of R145,
R103, R112, R122, R123 and R133, with the ranges of R53 and R54). -/
def Obligations.FirstFailingCheckIsRaised : Prop :=
  ∀ s : State,
    let bad (a : Word) (n : Nat) : Prop := n ≠ 0 ∧ s.memSize < a.toNat + n
    let n := s.regs.height.toNat + s.regs.srcLen.toNat
    raises .nop s = none ∧
    (raises .crc s = some .range ↔ bad s.regs.srcAddr s.regs.srcLen.toNat) ∧
    (raises .crc s = none ↔ ¬ bad s.regs.srcAddr s.regs.srcLen.toNat) ∧
    (raises .chunk s = some .badTagLen ↔ s.regs.tagLen ≠ 4#32) ∧
    (raises .chunk s = some .range ↔
      s.regs.tagLen = 4#32 ∧ (bad s.regs.tagAddr 4 ∨ bad s.regs.srcAddr s.regs.srcLen.toNat)) ∧
    (raises .chunk s = none ↔
      s.regs.tagLen = 4#32 ∧ ¬ bad s.regs.tagAddr 4 ∧ ¬ bad s.regs.srcAddr s.regs.srcLen.toNat) ∧
    ∀ i, (i = .scanline ∨ i = .encode) →
      let zero := s.regs.width = 0#32 ∨ s.regs.height = 0#32
      let len := s.regs.srcLen.toNat = s.regs.width.toNat * s.regs.height.toNat * 3
      let badRange := bad s.regs.srcAddr s.regs.srcLen.toNat ∨ (i = .scanline ∧ bad s.regs.dstAddr n)
      let overlap := i = .scanline ∧ 0 < s.regs.srcLen.toNat ∧ 0 < n ∧
        s.regs.srcAddr.toNat < s.regs.dstAddr.toNat + n ∧
        s.regs.dstAddr.toNat < s.regs.srcAddr.toNat + s.regs.srcLen.toNat
      (raises i s = some .zeroDim ↔ zero) ∧
      (raises i s = some .pixelLen ↔ ¬ zero ∧ ¬ len) ∧
      (raises i s = some .lenOverflow ↔ ¬ zero ∧ len ∧ 0xFFFFFFFF < n) ∧
      (raises i s = some .range ↔ ¬ zero ∧ len ∧ n ≤ 0xFFFFFFFF ∧ badRange) ∧
      (raises i s = some .overlap ↔ ¬ zero ∧ len ∧ n ≤ 0xFFFFFFFF ∧ ¬ badRange ∧ overlap) ∧
      (raises i s = none ↔ ¬ zero ∧ len ∧ n ≤ 0xFFFFFFFF ∧ ¬ badRange ∧ ¬ overlap)

/-- R152: a command that raises, ILLEGAL_CMD included, ends in one event with the error recorded: ERR, ERR_CODE, DONE,
XFER_COUNT = 0, the engine idle. Nothing else changes. R150: the codes. That decode, all checks and the error completion are
one engine event is the model's choice (log 13). -/
def Obligations.RaisedErrorIsRecorded : Prop :=
  errorCode .illegalCmd = 1#4 ∧ errorCode .badTagLen = 2#4 ∧ errorCode .zeroDim = 3#4 ∧ errorCode .pixelLen = 4#4 ∧
  errorCode .lenOverflow = 5#4 ∧ errorCode .range = 6#4 ∧ errorCode .overlap = 7#4 ∧
  ∀ (s : State) (e : InvalidArgument),
    (∀ i : Instr, raises i s = some e →
      exec i s = .next { s with
        xferCount := 0#32
        status := { s.status with err := true, errCode := errorCode e, done := true }
        engine := { s.engine with phase := .idle, validated := false, pending := [], before := [] } }) ∧
    (∀ rest : List Event, s.inputs = .engine :: rest → s.engine.phase = .run → s.engine.validated = false →
      ((∃ i, decode s.engine.op = .ok i ∧ raises i s = some e) ∨
        (∃ r, decode s.engine.op = .error r ∧ e = .illegalCmd)) →
      step s = .next { s with
        inputs := rest
        xferCount := 0#32
        status := { s.status with err := true, errCode := errorCode e, done := true }
        engine := { s.engine with phase := .idle, validated := false, pending := [], before := [] } })

/-- R154: after an error, ILLEGAL_CMD included, CRC_RESULT, the argument registers, CTRL, MEM and OUT are as before the CMD write; so is WIGN. -/
def Obligations.ErrorsArePrecise : Prop :=
  ∀ (s : State) (addr w : Word) (e : InvalidArgument) (rest : List Event),
    s.inputs = .hostWrite addr w :: .run :: rest → regOffset addr = 0x00C → s.engine.phase = .idle →
    ((∃ i, decode w = .ok i ∧ raises i s = some e) ∨ (∃ r, decode w = .error r ∧ e = .illegalCmd)) →
    ∃ t, runSteps 2 s = .next t ∧ t.inputs = rest ∧
      t.crcResult = s.crcResult ∧ t.regs = s.regs ∧ t.ie = s.ie ∧ t.mem = s.mem ∧ t.out = s.out ∧
      t.memTop = s.memTop ∧ t.xferCount = 0#32 ∧ t.engine.phase = .idle ∧ t.engine.pending = [] ∧
      t.status = { done := true, err := true, errCode := errorCode e, wign := s.status.wign, lastOp := opField w }

/-- R51, 93 U1: a command that has passed its checks and whose consumer is ready faults when a cell of a range it reads is
unwritten, at such a cell. -/
def Obligations.ReadOfAnUnwrittenCellFaults : Prop :=
  ∀ (s : State) (i : Instr) (r : Nat × Nat), s.consumerReady = true → raises i s = none →
    r ∈ readRanges i s.regs → memRead s.mem r.1 r.2 = none →
    ∃ a, exec i s = .fault (.unwrittenRead a) ∧ memGet s.mem a = none ∧
      ((readRanges i s.regs).any fun q => inRange q a) = true

/-! ## Frames and whole-machine rules -/

/-- R38, R40: no command writes an argument register, CTRL, WIGN or LAST_OP; none touches what is not the block's. -/
def Obligations.CommandsWriteNoArgument : Prop :=
  ∀ (s t : State) (i : Instr), exec i s = .next t →
    t.regs = s.regs ∧ t.ie = s.ie ∧ t.status.wign = s.status.wign ∧ t.status.lastOp = s.status.lastOp ∧
    t.memTop = s.memTop ∧ t.engine.op = s.engine.op ∧ t.consumerReady = s.consumerReady ∧ t.inputs = s.inputs ∧
    t.hostReads = s.hostReads ∧ t.draws = s.draws

/-- R33: CRC_RESULT is written only by CRC and CHUNK, and not on an error. -/
def Obligations.OnlyCrcAndChunkWriteCrcResult : Prop :=
  ∀ (s t : State) (i : Instr), exec i s = .next t →
    (i = .nop ∨ i = .scanline ∨ i = .encode ∨ raises i s ≠ none) → t.crcResult = s.crcResult

/-- R33, R34, R179: while a command is busy, CRC_RESULT and XFER_COUNT hold their values from before it. -/
def Obligations.ResultsChangeOnlyAtCompletion : Prop :=
  ∀ s t : State, s.busy = true → step s = .next t → t.busy = true →
    t.crcResult = s.crcResult ∧ t.xferCount = s.xferCount

/-- R56: the engine writes MEM only in SCANLINE, only in `(DST_ADDR, N)`. -/
def Obligations.OnlyScanlineWritesMem : Prop :=
  ∀ (s t : State) (i : Instr), exec i s = .next t →
    (i ≠ .scanline → t.mem = s.mem) ∧
    ∀ a, (a < s.regs.dstAddr.toNat ∨ s.regs.dstAddr.toNat + (s.regs.height.toNat + s.regs.srcLen.toNat) ≤ a) →
      memGet t.mem a = memGet s.mem a

/-- R57: bytes are only appended to OUT, by whatever event but power-on. -/
def Obligations.OutOnlyGrows : Prop :=
  ∀ s t : State, step s = .next t → (∀ rest, s.inputs ≠ .powerOn :: rest) → s.out <+: t.out

/-- R53, R55, R56: a command that passes its checks reads only cells of the ranges it names, writes only cells of its
destination, and never goes outside MEM. -/
def Obligations.EngineStaysInsideItsRanges : Prop :=
  ∀ (s : State) (i : Instr) (ev : EngineEvent), raises i s = none → ev ∈ eventsOf i s.regs →
    (∀ a, (ev = .crcFold (.cell a) ∨ (∃ f, ev = .emit (.cell a) f) ∨ (∃ d, ev = .store d (.cell a))) →
      a < s.memSize ∧ ((readRanges i s.regs).any fun q => inRange q a) = true) ∧
    (∀ d src, ev = .store d src →
      d < s.memSize ∧ ((writeRanges i s.regs).any fun q => inRange q d) = true)

/-- R160, R143: irq is `CTRL.IE AND STATUS.DONE`; a busy block whose command has ended drives it with IE. -/
def Obligations.IrqIsIeAndDone : Prop :=
  (∀ s : State, s.irq = true ↔ s.ie = true ∧ s.status.done = true) ∧
  ∀ (s t : State) (i : Instr), s.busy = true → exec i s = .next t → t.busy = false → t.irq = s.ie

/-- R138: what ENCODE emits depends only on WIDTH, HEIGHT and the pixel bytes, not on the addresses or on what came
before. -/
def Obligations.EncodeOutputDependsOnlyOnTheImage : Prop :=
  ∀ (s s' t t' : State) (p : List Byte), s.consumerReady = true → s'.consumerReady = true →
    s.regs.width = s'.regs.width → s.regs.height = s'.regs.height → raises .encode s = none → raises .encode s' = none →
    memRead s.mem s.regs.srcAddr.toNat s.regs.srcLen.toNat = some p →
    memRead s'.mem s'.regs.srcAddr.toNat s'.regs.srcLen.toNat = some p →
    exec .encode s = .next t → exec .encode s' = .next t' →
    ∃ bs, bs ≠ [] ∧ t.out = s.out ++ bs ∧ t'.out = s'.out ++ bs

/-! ## Byte formats -/

/-- R111: a frame has 12 bytes beside its data; its length field is the data's length and its CRC covers tag and data. -/
def Obligations.FrameLayout : Prop :=
  ∀ tag data : List Byte, tag.length = 4 → data.length ≤ 0xFFFFFFFF →
    (frame tag data).length = 12 + data.length ∧
    (frame tag data).take 4 = be4 (BitVec.ofNat 32 data.length) ∧
    ((frame tag data).drop 4).take 4 = tag ∧
    ((frame tag data).drop 8).take data.length = data ∧
    (frame tag data).drop (8 + data.length) = be4 (crc32 (tag ++ data))

/-- R10: BE4 puts the most significant byte first: read back in that order, it gives the word. -/
def Obligations.BigEndianFieldReadsBack : Prop :=
  ∀ v : Word, (be4 v).foldl (fun n b => n * 256 + b.toNat) 0 = v.toNat ∧ (be4 v).length = 4

/-- R120: the index form of the scanline layout, and where it ends. -/
def Obligations.ScanIndexForm : Prop :=
  ∀ (p : List Byte) (w h k : Nat), p.length = w * h * 3 → 0 < w → 0 < h →
    (k < h * (3 * w + 1) → (scan p w h)[k]? =
      if k % (3 * w + 1) = 0 then some 0#8 else p[k / (3 * w + 1) * (3 * w) + (k % (3 * w + 1) - 1)]?) ∧
    (h * (3 * w + 1) ≤ k → (scan p w h)[k]? = none)

/-- R121: the layout's length, and the filter byte of every row. -/
def Obligations.ScanLengthAndFilterBytes : Prop :=
  ∀ (p : List Byte) (w h : Nat), p.length = w * h * 3 → 0 < w → 0 < h →
    (scan p w h).length = h + w * h * 3 ∧ ∀ r, r < h → (scan p w h)[r * (w * 3 + 1)]? = some 0#8

/-- R134: the length of a PNG stream. -/
def Obligations.PngLength : Prop :=
  ∀ (p : List Byte) (w h : Word), p.length = w.toNat * h.toNat * 3 → w ≠ 0#32 → h ≠ 0#32 →
    (png p w h).length = 57 + (h.toNat + w.toNat * h.toNat * 3)

/-! ## MEM and the host -/

/-- R52, R177: a host write of a cell that is in no range of the running command stores the byte, and every other cell and
everything else are unchanged. For a SCANLINE whose image checks raise, the length of the destination is log 8. -/
def Obligations.HostMemWriteStoresTheByte : Prop :=
  ∀ (s : State) (addr : Word) (b : Byte) (rest : List Event),
    s.inputs = .memWrite addr b :: rest → addr.toNat < s.memSize →
    ((runningRanges s).any fun q => inRange q addr.toNat) = false →
    ∃ m, step s = .next { s with inputs := rest, mem := m } ∧ memGet m addr.toNat = some b ∧
      ∀ a, a ≠ addr.toNat → memGet m a = memGet s.mem a

/-- R52: a host read of a written cell, while no SCANLINE writes it, returns its byte; of an unwritten one faults. That a
SCANLINE that will raise has no destination cell to write is the model's reading of R178 (log 7). -/
def Obligations.HostMemReadReturnsTheByte : Prop :=
  ∀ (s : State) (addr : Word) (rest : List Event),
    s.inputs = .memRead addr :: rest → addr.toNat < s.memSize →
    ((runningWrites s).any fun q => inRange q addr.toNat) = false →
    (∀ b, memGet s.mem addr.toNat = some b →
      step s = .next { s with inputs := rest, hostReads := s.hostReads ++ [.byte b] }) ∧
    (memGet s.mem addr.toNat = none → step s = .fault (.unwrittenRead addr.toNat))

/-- R52: a host access at or above MEM_SIZE does nothing: a write is ignored, a read returns 0. -/
def Obligations.HostMemAccessAboveMemSize : Prop :=
  ∀ (s : State) (addr : Word) (b : Byte) (rest : List Event), s.memSize ≤ addr.toNat →
    (s.inputs = .memWrite addr b :: rest → step s = .next { s with inputs := rest }) ∧
    (s.inputs = .memRead addr :: rest →
      step s = .next { s with inputs := rest, hostReads := s.hostReads ++ [.byte 0#8] })

/-- R177: a host write, while busy, of a MEM cell in a range of the running command, named by the registers whether or not
the command's checks pass, is a fault of the run. For a SCANLINE whose image checks raise, N = H + L is log 8. -/
def Obligations.HostWriteUnderACommandFaults : Prop :=
  ∀ (s : State) (addr : Word) (b : Byte) (rest : List Event) (i : Instr) (r : Nat × Nat),
    s.inputs = .memWrite addr b :: rest → s.engine.phase = .run → decode s.engine.op = .ok i →
    addr.toNat < s.memSize →
    (i = .crc ∧ r = (s.regs.srcAddr.toNat, s.regs.srcLen.toNat) ∨
     i = .chunk ∧ (r = (s.regs.tagAddr.toNat, 4) ∨ r = (s.regs.srcAddr.toNat, s.regs.srcLen.toNat)) ∨
     i = .scanline ∧ (r = (s.regs.srcAddr.toNat, s.regs.srcLen.toNat) ∨
       r = (s.regs.dstAddr.toNat, s.regs.height.toNat + s.regs.srcLen.toNat)) ∨
     i = .encode ∧ r = (s.regs.srcAddr.toNat, s.regs.srcLen.toNat)) →
    r.1 ≤ addr.toNat → addr.toNat < r.1 + r.2 →
    step s = .fault (.hostWriteHazard addr.toNat)

/-- R178: a host read, while a SCANLINE is busy, of a cell of its destination returns the value SCANLINE writes there or
the cell's value before the command; if that value is unwritten, it faults. Which one is free (log 5). -/
def Obligations.HostReadOfDestinationIsOldOrNew : Prop :=
  ∀ (s : State) (addr : Word) (rest : List Event) (p : List Byte),
    s.inputs = .memRead addr :: rest → s.engine.phase = .run → decode s.engine.op = .ok .scanline →
    raises .scanline s = none → memRead s.mem s.regs.srcAddr.toNat s.regs.srcLen.toNat = some p →
    inRange (s.regs.dstAddr.toNat, s.regs.height.toNat + s.regs.srcLen.toNat) addr.toNat = true →
    ∃ b : Byte,
      (scan p s.regs.width.toNat s.regs.height.toNat)[addr.toNat - s.regs.dstAddr.toNat]? = some b ∧
      (step s = .next { s with inputs := rest, draws := s.draws + 1, hostReads := s.hostReads ++ [.byte b] } ∨
       (∃ c, memGet s.engine.before addr.toNat = some c ∧
         step s = .next { s with inputs := rest, draws := s.draws + 1, hostReads := s.hostReads ++ [.byte c] }) ∨
       (memGet s.engine.before addr.toNat = none ∧ step s = .fault (.unwrittenRead addr.toNat)))

/-! ## The engine's events and the consumer -/

/-- R58: the consumer accepts the offered byte: it is appended to OUT and the engine goes on to the next event. R57: a byte
of the finished CRC carries the `last` marker of its event, every other byte `last` = 0. -/
def Obligations.AcceptMovesOneByte : Prop :=
  ∀ (s : State) (more : List EngineEvent) (rest : List Event),
    s.inputs = .accept :: rest → s.engine.phase = .run → s.engine.validated = true →
    (∀ (src : ByteSource) (b : Byte) (fold : Bool),
      s.engine.pending = .emit src fold :: more → sourceByte s.mem src = some b →
      step s = .next { s with
        inputs := rest
        out := s.out ++ [⟨b, false⟩]
        engine := { s.engine with pending := more, crc := if fold then crcUpdate s.engine.crc b else s.engine.crc } }) ∧
    (∀ (k : Fin 4) (last : Bool), s.engine.pending = .emitCrc k last :: more →
      step s = .next { s with
        inputs := rest
        out := s.out ++ [⟨be4Byte (~~~s.engine.crc) k, last⟩]
        engine := { s.engine with pending := more } })

/-- R180, 93 U8: while the consumer accepts nothing and nothing else happens, a block that offers a byte stays as it is. -/
def Obligations.StalledBlockStaysBusy : Prop :=
  ∀ (s : State) (ev : EngineEvent) (more : List EngineEvent), s.inputs = [] → s.consumerReady = false →
    s.engine.phase = .run → s.engine.validated = true → s.engine.pending = ev :: more → isEmission ev = true →
    step s = .next s

/-- R142: a command run as a whole does what its single engine events do: one validation event and then its events, one by
one. That exec is the whole run is the model's choice (log 2). -/
def Obligations.EngineEventsReachTheMeaning : Prop :=
  ∀ (s t : State) (i : Instr), s.engine.phase = .run → s.engine.validated = false → decode s.engine.op = .ok i →
    s.consumerReady = true → exec i s = .next t →
    ∃ n, runSteps n { s with inputs := List.replicate n .engine } = .next { t with inputs := [] }

/-- R81, R183: with a ready consumer, a host that polls a busy block sees DONE after finitely many steps, when the command
does not fault, and when the word is illegal (R157). The alternation of reads and engine events is the model's (log 16). -/
def Obligations.PollEndsWhenTheCommandCompletes : Prop :=
  ∀ s t : State, s.inputs = [.poll] → s.status.done = false → s.engine.phase = .run →
    s.engine.validated = false → s.consumerReady = true →
    ((∃ i, decode s.engine.op = .ok i ∧ exec i s = .next t) ∨
      (∃ r, decode s.engine.op = .error r ∧ t = { s with
        xferCount := 0#32
        status := { s.status with err := true, errCode := 1#4, done := true }
        engine := { s.engine with phase := .idle, validated := false, pending := [], before := [] } })) →
    ∃ n u, runSteps n s = .next u ∧ u.inputs = [] ∧ u.status.done = true ∧
      u.hostReads.getLast? = some (.word (statusWord false t.status))

/-! ## Reset -/

/-- R20, R170, R172: the machine after power-on reset. -/
def Obligations.StateAfterPowerOnReset : Prop :=
  State.reset.ie = false ∧ State.reset.status = ⟨false, false, false, 0#4, 0#4⟩ ∧
  State.reset.regs = ⟨0#32, 0#32, 0#32, 0#32, 0#32, 0#32, 0#32⟩ ∧ State.reset.crcResult = 0#32 ∧
  State.reset.xferCount = 0#32 ∧ State.reset.mem = [] ∧ State.reset.out = [] ∧ State.reset.engine.phase = .idle ∧
  State.reset.engine.pending = [] ∧ State.reset.irq = false

/-- R170: a reset sets every register to its reset value, makes the engine idle with nothing pending or offered, and lowers
irq. It keeps OUT, and an idle block's MEM. -/
def Obligations.ResetSetsEveryRegister : Prop :=
  ∀ (s : State) (rest : List Event), s.inputs = .reset :: rest →
    ∃ t, step s = .next t ∧ t.inputs = rest ∧ t.ie = false ∧ t.status = ⟨false, false, false, 0#4, 0#4⟩ ∧
      t.regs = ⟨0#32, 0#32, 0#32, 0#32, 0#32, 0#32, 0#32⟩ ∧ t.crcResult = 0#32 ∧ t.xferCount = 0#32 ∧
      regValue .id t = 0x4C420001#32 ∧ t.engine.phase = .idle ∧ t.engine.pending = [] ∧ offers t = false ∧
      t.irq = false ∧ t.out = s.out ∧ (s.engine.phase = .idle → t.mem = s.mem)

/-- R171: a reset during a command, an illegal word included, keeps every accepted OUT byte and drops what the command still
had to do; a SCANLINE's destination becomes unwritten, whether or not its checks pass; nothing else in MEM changes. For a
SCANLINE whose image checks raise, N = H + L is log 8. -/
def Obligations.ResetDuringACommand : Prop :=
  ∀ (s : State) (rest : List Event), s.inputs = .reset :: rest → s.engine.phase = .run →
    ∃ t, step s = .next t ∧ t.out = s.out ∧ t.engine.phase = .idle ∧ t.engine.pending = [] ∧
      (decode s.engine.op ≠ .ok .scanline → t.mem = s.mem) ∧
      (decode s.engine.op = .ok .scanline → ∀ a, memGet t.mem a =
        if inRange (s.regs.dstAddr.toNat, s.regs.height.toNat + s.regs.srcLen.toNat) a then none else memGet s.mem a)

/-- R172: after power-on every cell is unwritten, OUT is empty, and the registers are as after reset. -/
def Obligations.PowerOnErasesMemAndOut : Prop :=
  ∀ (s : State) (rest : List Event), s.inputs = .powerOn :: rest →
    ∃ t, step s = .next t ∧ (∀ a, memGet t.mem a = none) ∧ t.out = [] ∧ t.ie = false ∧
      t.status = ⟨false, false, false, 0#4, 0#4⟩ ∧ t.regs = ⟨0#32, 0#32, 0#32, 0#32, 0#32, 0#32, 0#32⟩ ∧
      t.crcResult = 0#32 ∧ t.xferCount = 0#32 ∧ regValue .id t = 0x4C420001#32 ∧ t.engine.phase = .idle ∧
      t.engine.pending = [] ∧ offers t = false ∧ t.irq = false

/-- R175: what each command does straight after reset. -/
def Obligations.CommandsStraightAfterReset : Prop :=
  ∀ i : Instr, ∃ t,
    runSteps 2 (State.reset.setInputs [.hostWrite 0x00C#32 (encode i)]) = .next t ∧ t.busy = false ∧
    t.status.done = true ∧
    (i = .crc → t.crcResult = 0#32 ∧ t.status.err = false) ∧
    (i = .nop → t.status.err = false) ∧
    (i = .chunk → t.status.errCode = errorCode .badTagLen) ∧
    ((i = .scanline ∨ i = .encode) → t.status.errCode = errorCode .zeroDim)

/-! ## Invariants -/

/-- The invariant holds after reset. -/
def Obligations.InvariantHoldsAtReset : Prop := BlockInv State.reset

/-- R23, R42, R51: every step keeps the invariant: MEM is canonical and inside `0 .. MEM_SIZE-1`; STATUS obeys R23's
invariants; the engine's hidden state is that of an idle engine or of a command part way through its own events. -/
def Obligations.EveryStepKeepsTheInvariant : Prop :=
  ∀ s t : State, BlockInv s → step s = .next t → BlockInv t

/-- R4: no event changes MEM_SIZE, which the model holds in State (log 3). -/
def Obligations.MemSizeNeverChanges : Prop := ∀ s t : State, step s = .next t → t.memSize = s.memSize

/-! ## Host scripts and platform -/

/-- R82: the host transactions of each pseudo-instruction, and the refusal of a `scanline` or `encode` whose `w*h*3` does
not fit in 32 bits. -/
def Obligations.PseudoInstructionsExpand : Prop :=
  ((expandPseudo .nop).map scriptEvents = some [.hostWrite 0x00C#32 0x00000000#32, .poll]) ∧
  (∀ a n : Word, (expandPseudo (.crc a n)).map scriptEvents = some
    [.hostWrite 0x010#32 a, .hostWrite 0x014#32 n, .hostWrite 0x00C#32 0x00000001#32, .poll]) ∧
  (∀ t a n : Word, (expandPseudo (.chunk t a n)).map scriptEvents = some
    [.hostWrite 0x01C#32 t, .hostWrite 0x020#32 4#32, .hostWrite 0x010#32 a, .hostWrite 0x014#32 n,
      .hostWrite 0x00C#32 0x00000002#32, .poll]) ∧
  (∀ s w h d : Word, (expandPseudo (.scanline s w h d)).map scriptEvents =
    if 2 ^ 32 ≤ w.toNat * h.toNat * 3 then none else some
      [.hostWrite 0x010#32 s, .hostWrite 0x014#32 (BitVec.ofNat 32 (w.toNat * h.toNat * 3)), .hostWrite 0x024#32 w,
        .hostWrite 0x028#32 h, .hostWrite 0x018#32 d, .hostWrite 0x00C#32 0x00000003#32, .poll]) ∧
  (∀ s w h : Word, (expandPseudo (.encode s w h)).map scriptEvents =
    if 2 ^ 32 ≤ w.toNat * h.toNat * 3 then none else some
      [.hostWrite 0x010#32 s, .hostWrite 0x014#32 (BitVec.ofNat 32 (w.toNat * h.toNat * 3)), .hostWrite 0x024#32 w,
        .hostWrite 0x028#32 h, .hostWrite 0x00C#32 0x00000004#32, .poll]) ∧
  ((expandPseudo .clear).map scriptEvents = some [.hostWrite 0x008#32 0x0000000E#32])

/-- R166: when block `k` moves it becomes the state that `step` answers and every other block stays as it is; when its step
faults, that is the outcome. That the instances are a list is the model's choice (log 19). -/
def Obligations.InstancesShareNoState : Prop :=
  ∀ (k : Nat) (bs : List State) (s : State), bs[k]? = some s →
    (∀ t, step s = .next t →
      ∃ bs', stepInstance k bs = .next bs' ∧ bs'.length = bs.length ∧ bs'[k]? = some t ∧ ∀ j, j ≠ k → bs'[j]? = bs[j]?) ∧
    (∀ f, step s = .fault f → stepInstance k bs = .fault f)
end

