-- ==== Sys2Proof/Laws/State.lean ====
section
/-! SUPPORT. One lemma per field per update of the state, true by rfl, so that no later proof unfolds an update. -/

namespace Sys2Proof.Machine

variable (s : State)

@[simp] theorem State.setIe_memTop (v : Bool) : (s.setIe v).memTop = s.memTop := rfl
@[simp] theorem State.setIe_ie (v : Bool) : (s.setIe v).ie = v := rfl
@[simp] theorem State.setIe_status (v : Bool) : (s.setIe v).status = s.status := rfl
@[simp] theorem State.setIe_regs (v : Bool) : (s.setIe v).regs = s.regs := rfl
@[simp] theorem State.setIe_crcResult (v : Bool) : (s.setIe v).crcResult = s.crcResult := rfl
@[simp] theorem State.setIe_xferCount (v : Bool) : (s.setIe v).xferCount = s.xferCount := rfl
@[simp] theorem State.setIe_mem (v : Bool) : (s.setIe v).mem = s.mem := rfl
@[simp] theorem State.setIe_out (v : Bool) : (s.setIe v).out = s.out := rfl
@[simp] theorem State.setIe_engine (v : Bool) : (s.setIe v).engine = s.engine := rfl
@[simp] theorem State.setIe_consumerReady (v : Bool) : (s.setIe v).consumerReady = s.consumerReady := rfl
@[simp] theorem State.setIe_inputs (v : Bool) : (s.setIe v).inputs = s.inputs := rfl
@[simp] theorem State.setIe_hostReads (v : Bool) : (s.setIe v).hostReads = s.hostReads := rfl
@[simp] theorem State.setIe_draws (v : Bool) : (s.setIe v).draws = s.draws := rfl

@[simp] theorem State.setStatus_memTop (v : Status) : (s.setStatus v).memTop = s.memTop := rfl
@[simp] theorem State.setStatus_ie (v : Status) : (s.setStatus v).ie = s.ie := rfl
@[simp] theorem State.setStatus_status (v : Status) : (s.setStatus v).status = v := rfl
@[simp] theorem State.setStatus_regs (v : Status) : (s.setStatus v).regs = s.regs := rfl
@[simp] theorem State.setStatus_crcResult (v : Status) : (s.setStatus v).crcResult = s.crcResult := rfl
@[simp] theorem State.setStatus_xferCount (v : Status) : (s.setStatus v).xferCount = s.xferCount := rfl
@[simp] theorem State.setStatus_mem (v : Status) : (s.setStatus v).mem = s.mem := rfl
@[simp] theorem State.setStatus_out (v : Status) : (s.setStatus v).out = s.out := rfl
@[simp] theorem State.setStatus_engine (v : Status) : (s.setStatus v).engine = s.engine := rfl
@[simp] theorem State.setStatus_consumerReady (v : Status) : (s.setStatus v).consumerReady = s.consumerReady := rfl
@[simp] theorem State.setStatus_inputs (v : Status) : (s.setStatus v).inputs = s.inputs := rfl
@[simp] theorem State.setStatus_hostReads (v : Status) : (s.setStatus v).hostReads = s.hostReads := rfl
@[simp] theorem State.setStatus_draws (v : Status) : (s.setStatus v).draws = s.draws := rfl

@[simp] theorem State.setRegs_memTop (v : Regs) : (s.setRegs v).memTop = s.memTop := rfl
@[simp] theorem State.setRegs_ie (v : Regs) : (s.setRegs v).ie = s.ie := rfl
@[simp] theorem State.setRegs_status (v : Regs) : (s.setRegs v).status = s.status := rfl
@[simp] theorem State.setRegs_regs (v : Regs) : (s.setRegs v).regs = v := rfl
@[simp] theorem State.setRegs_crcResult (v : Regs) : (s.setRegs v).crcResult = s.crcResult := rfl
@[simp] theorem State.setRegs_xferCount (v : Regs) : (s.setRegs v).xferCount = s.xferCount := rfl
@[simp] theorem State.setRegs_mem (v : Regs) : (s.setRegs v).mem = s.mem := rfl
@[simp] theorem State.setRegs_out (v : Regs) : (s.setRegs v).out = s.out := rfl
@[simp] theorem State.setRegs_engine (v : Regs) : (s.setRegs v).engine = s.engine := rfl
@[simp] theorem State.setRegs_consumerReady (v : Regs) : (s.setRegs v).consumerReady = s.consumerReady := rfl
@[simp] theorem State.setRegs_inputs (v : Regs) : (s.setRegs v).inputs = s.inputs := rfl
@[simp] theorem State.setRegs_hostReads (v : Regs) : (s.setRegs v).hostReads = s.hostReads := rfl
@[simp] theorem State.setRegs_draws (v : Regs) : (s.setRegs v).draws = s.draws := rfl

@[simp] theorem State.setCrcResult_memTop (v : Word) : (s.setCrcResult v).memTop = s.memTop := rfl
@[simp] theorem State.setCrcResult_ie (v : Word) : (s.setCrcResult v).ie = s.ie := rfl
@[simp] theorem State.setCrcResult_status (v : Word) : (s.setCrcResult v).status = s.status := rfl
@[simp] theorem State.setCrcResult_regs (v : Word) : (s.setCrcResult v).regs = s.regs := rfl
@[simp] theorem State.setCrcResult_crcResult (v : Word) : (s.setCrcResult v).crcResult = v := rfl
@[simp] theorem State.setCrcResult_xferCount (v : Word) : (s.setCrcResult v).xferCount = s.xferCount := rfl
@[simp] theorem State.setCrcResult_mem (v : Word) : (s.setCrcResult v).mem = s.mem := rfl
@[simp] theorem State.setCrcResult_out (v : Word) : (s.setCrcResult v).out = s.out := rfl
@[simp] theorem State.setCrcResult_engine (v : Word) : (s.setCrcResult v).engine = s.engine := rfl
@[simp] theorem State.setCrcResult_consumerReady (v : Word) : (s.setCrcResult v).consumerReady = s.consumerReady := rfl
@[simp] theorem State.setCrcResult_inputs (v : Word) : (s.setCrcResult v).inputs = s.inputs := rfl
@[simp] theorem State.setCrcResult_hostReads (v : Word) : (s.setCrcResult v).hostReads = s.hostReads := rfl
@[simp] theorem State.setCrcResult_draws (v : Word) : (s.setCrcResult v).draws = s.draws := rfl

@[simp] theorem State.setXferCount_memTop (v : Word) : (s.setXferCount v).memTop = s.memTop := rfl
@[simp] theorem State.setXferCount_ie (v : Word) : (s.setXferCount v).ie = s.ie := rfl
@[simp] theorem State.setXferCount_status (v : Word) : (s.setXferCount v).status = s.status := rfl
@[simp] theorem State.setXferCount_regs (v : Word) : (s.setXferCount v).regs = s.regs := rfl
@[simp] theorem State.setXferCount_crcResult (v : Word) : (s.setXferCount v).crcResult = s.crcResult := rfl
@[simp] theorem State.setXferCount_xferCount (v : Word) : (s.setXferCount v).xferCount = v := rfl
@[simp] theorem State.setXferCount_mem (v : Word) : (s.setXferCount v).mem = s.mem := rfl
@[simp] theorem State.setXferCount_out (v : Word) : (s.setXferCount v).out = s.out := rfl
@[simp] theorem State.setXferCount_engine (v : Word) : (s.setXferCount v).engine = s.engine := rfl
@[simp] theorem State.setXferCount_consumerReady (v : Word) : (s.setXferCount v).consumerReady = s.consumerReady := rfl
@[simp] theorem State.setXferCount_inputs (v : Word) : (s.setXferCount v).inputs = s.inputs := rfl
@[simp] theorem State.setXferCount_hostReads (v : Word) : (s.setXferCount v).hostReads = s.hostReads := rfl
@[simp] theorem State.setXferCount_draws (v : Word) : (s.setXferCount v).draws = s.draws := rfl

@[simp] theorem State.setMem_memTop (v : Memory) : (s.setMem v).memTop = s.memTop := rfl
@[simp] theorem State.setMem_ie (v : Memory) : (s.setMem v).ie = s.ie := rfl
@[simp] theorem State.setMem_status (v : Memory) : (s.setMem v).status = s.status := rfl
@[simp] theorem State.setMem_regs (v : Memory) : (s.setMem v).regs = s.regs := rfl
@[simp] theorem State.setMem_crcResult (v : Memory) : (s.setMem v).crcResult = s.crcResult := rfl
@[simp] theorem State.setMem_xferCount (v : Memory) : (s.setMem v).xferCount = s.xferCount := rfl
@[simp] theorem State.setMem_mem (v : Memory) : (s.setMem v).mem = v := rfl
@[simp] theorem State.setMem_out (v : Memory) : (s.setMem v).out = s.out := rfl
@[simp] theorem State.setMem_engine (v : Memory) : (s.setMem v).engine = s.engine := rfl
@[simp] theorem State.setMem_consumerReady (v : Memory) : (s.setMem v).consumerReady = s.consumerReady := rfl
@[simp] theorem State.setMem_inputs (v : Memory) : (s.setMem v).inputs = s.inputs := rfl
@[simp] theorem State.setMem_hostReads (v : Memory) : (s.setMem v).hostReads = s.hostReads := rfl
@[simp] theorem State.setMem_draws (v : Memory) : (s.setMem v).draws = s.draws := rfl

@[simp] theorem State.setOut_memTop (v : List OutByte) : (s.setOut v).memTop = s.memTop := rfl
@[simp] theorem State.setOut_ie (v : List OutByte) : (s.setOut v).ie = s.ie := rfl
@[simp] theorem State.setOut_status (v : List OutByte) : (s.setOut v).status = s.status := rfl
@[simp] theorem State.setOut_regs (v : List OutByte) : (s.setOut v).regs = s.regs := rfl
@[simp] theorem State.setOut_crcResult (v : List OutByte) : (s.setOut v).crcResult = s.crcResult := rfl
@[simp] theorem State.setOut_xferCount (v : List OutByte) : (s.setOut v).xferCount = s.xferCount := rfl
@[simp] theorem State.setOut_mem (v : List OutByte) : (s.setOut v).mem = s.mem := rfl
@[simp] theorem State.setOut_out (v : List OutByte) : (s.setOut v).out = v := rfl
@[simp] theorem State.setOut_engine (v : List OutByte) : (s.setOut v).engine = s.engine := rfl
@[simp] theorem State.setOut_consumerReady (v : List OutByte) : (s.setOut v).consumerReady = s.consumerReady := rfl
@[simp] theorem State.setOut_inputs (v : List OutByte) : (s.setOut v).inputs = s.inputs := rfl
@[simp] theorem State.setOut_hostReads (v : List OutByte) : (s.setOut v).hostReads = s.hostReads := rfl
@[simp] theorem State.setOut_draws (v : List OutByte) : (s.setOut v).draws = s.draws := rfl

@[simp] theorem State.setEngine_memTop (v : Engine) : (s.setEngine v).memTop = s.memTop := rfl
@[simp] theorem State.setEngine_ie (v : Engine) : (s.setEngine v).ie = s.ie := rfl
@[simp] theorem State.setEngine_status (v : Engine) : (s.setEngine v).status = s.status := rfl
@[simp] theorem State.setEngine_regs (v : Engine) : (s.setEngine v).regs = s.regs := rfl
@[simp] theorem State.setEngine_crcResult (v : Engine) : (s.setEngine v).crcResult = s.crcResult := rfl
@[simp] theorem State.setEngine_xferCount (v : Engine) : (s.setEngine v).xferCount = s.xferCount := rfl
@[simp] theorem State.setEngine_mem (v : Engine) : (s.setEngine v).mem = s.mem := rfl
@[simp] theorem State.setEngine_out (v : Engine) : (s.setEngine v).out = s.out := rfl
@[simp] theorem State.setEngine_engine (v : Engine) : (s.setEngine v).engine = v := rfl
@[simp] theorem State.setEngine_consumerReady (v : Engine) : (s.setEngine v).consumerReady = s.consumerReady := rfl
@[simp] theorem State.setEngine_inputs (v : Engine) : (s.setEngine v).inputs = s.inputs := rfl
@[simp] theorem State.setEngine_hostReads (v : Engine) : (s.setEngine v).hostReads = s.hostReads := rfl
@[simp] theorem State.setEngine_draws (v : Engine) : (s.setEngine v).draws = s.draws := rfl

@[simp] theorem State.setConsumerReady_memTop (v : Bool) : (s.setConsumerReady v).memTop = s.memTop := rfl
@[simp] theorem State.setConsumerReady_ie (v : Bool) : (s.setConsumerReady v).ie = s.ie := rfl
@[simp] theorem State.setConsumerReady_status (v : Bool) : (s.setConsumerReady v).status = s.status := rfl
@[simp] theorem State.setConsumerReady_regs (v : Bool) : (s.setConsumerReady v).regs = s.regs := rfl
@[simp] theorem State.setConsumerReady_crcResult (v : Bool) : (s.setConsumerReady v).crcResult = s.crcResult := rfl
@[simp] theorem State.setConsumerReady_xferCount (v : Bool) : (s.setConsumerReady v).xferCount = s.xferCount := rfl
@[simp] theorem State.setConsumerReady_mem (v : Bool) : (s.setConsumerReady v).mem = s.mem := rfl
@[simp] theorem State.setConsumerReady_out (v : Bool) : (s.setConsumerReady v).out = s.out := rfl
@[simp] theorem State.setConsumerReady_engine (v : Bool) : (s.setConsumerReady v).engine = s.engine := rfl
@[simp] theorem State.setConsumerReady_consumerReady (v : Bool) : (s.setConsumerReady v).consumerReady = v := rfl
@[simp] theorem State.setConsumerReady_inputs (v : Bool) : (s.setConsumerReady v).inputs = s.inputs := rfl
@[simp] theorem State.setConsumerReady_hostReads (v : Bool) : (s.setConsumerReady v).hostReads = s.hostReads := rfl
@[simp] theorem State.setConsumerReady_draws (v : Bool) : (s.setConsumerReady v).draws = s.draws := rfl

@[simp] theorem State.setInputs_memTop (v : List Event) : (s.setInputs v).memTop = s.memTop := rfl
@[simp] theorem State.setInputs_ie (v : List Event) : (s.setInputs v).ie = s.ie := rfl
@[simp] theorem State.setInputs_status (v : List Event) : (s.setInputs v).status = s.status := rfl
@[simp] theorem State.setInputs_regs (v : List Event) : (s.setInputs v).regs = s.regs := rfl
@[simp] theorem State.setInputs_crcResult (v : List Event) : (s.setInputs v).crcResult = s.crcResult := rfl
@[simp] theorem State.setInputs_xferCount (v : List Event) : (s.setInputs v).xferCount = s.xferCount := rfl
@[simp] theorem State.setInputs_mem (v : List Event) : (s.setInputs v).mem = s.mem := rfl
@[simp] theorem State.setInputs_out (v : List Event) : (s.setInputs v).out = s.out := rfl
@[simp] theorem State.setInputs_engine (v : List Event) : (s.setInputs v).engine = s.engine := rfl
@[simp] theorem State.setInputs_consumerReady (v : List Event) : (s.setInputs v).consumerReady = s.consumerReady := rfl
@[simp] theorem State.setInputs_inputs (v : List Event) : (s.setInputs v).inputs = v := rfl
@[simp] theorem State.setInputs_hostReads (v : List Event) : (s.setInputs v).hostReads = s.hostReads := rfl
@[simp] theorem State.setInputs_draws (v : List Event) : (s.setInputs v).draws = s.draws := rfl

@[simp] theorem State.setHostReads_memTop (v : List HostData) : (s.setHostReads v).memTop = s.memTop := rfl
@[simp] theorem State.setHostReads_ie (v : List HostData) : (s.setHostReads v).ie = s.ie := rfl
@[simp] theorem State.setHostReads_status (v : List HostData) : (s.setHostReads v).status = s.status := rfl
@[simp] theorem State.setHostReads_regs (v : List HostData) : (s.setHostReads v).regs = s.regs := rfl
@[simp] theorem State.setHostReads_crcResult (v : List HostData) : (s.setHostReads v).crcResult = s.crcResult := rfl
@[simp] theorem State.setHostReads_xferCount (v : List HostData) : (s.setHostReads v).xferCount = s.xferCount := rfl
@[simp] theorem State.setHostReads_mem (v : List HostData) : (s.setHostReads v).mem = s.mem := rfl
@[simp] theorem State.setHostReads_out (v : List HostData) : (s.setHostReads v).out = s.out := rfl
@[simp] theorem State.setHostReads_engine (v : List HostData) : (s.setHostReads v).engine = s.engine := rfl
@[simp] theorem State.setHostReads_consumerReady (v : List HostData) : (s.setHostReads v).consumerReady = s.consumerReady := rfl
@[simp] theorem State.setHostReads_inputs (v : List HostData) : (s.setHostReads v).inputs = s.inputs := rfl
@[simp] theorem State.setHostReads_hostReads (v : List HostData) : (s.setHostReads v).hostReads = v := rfl
@[simp] theorem State.setHostReads_draws (v : List HostData) : (s.setHostReads v).draws = s.draws := rfl

@[simp] theorem State.setDraws_memTop (v : Nat) : (s.setDraws v).memTop = s.memTop := rfl
@[simp] theorem State.setDraws_ie (v : Nat) : (s.setDraws v).ie = s.ie := rfl
@[simp] theorem State.setDraws_status (v : Nat) : (s.setDraws v).status = s.status := rfl
@[simp] theorem State.setDraws_regs (v : Nat) : (s.setDraws v).regs = s.regs := rfl
@[simp] theorem State.setDraws_crcResult (v : Nat) : (s.setDraws v).crcResult = s.crcResult := rfl
@[simp] theorem State.setDraws_xferCount (v : Nat) : (s.setDraws v).xferCount = s.xferCount := rfl
@[simp] theorem State.setDraws_mem (v : Nat) : (s.setDraws v).mem = s.mem := rfl
@[simp] theorem State.setDraws_out (v : Nat) : (s.setDraws v).out = s.out := rfl
@[simp] theorem State.setDraws_engine (v : Nat) : (s.setDraws v).engine = s.engine := rfl
@[simp] theorem State.setDraws_consumerReady (v : Nat) : (s.setDraws v).consumerReady = s.consumerReady := rfl
@[simp] theorem State.setDraws_inputs (v : Nat) : (s.setDraws v).inputs = s.inputs := rfl
@[simp] theorem State.setDraws_hostReads (v : Nat) : (s.setDraws v).hostReads = s.hostReads := rfl
@[simp] theorem State.setDraws_draws (v : Nat) : (s.setDraws v).draws = v := rfl

end Sys2Proof.Machine
end

