-- ==== Sys2Proof/Laws/Memory.lean ====
section
/-! SUPPORT. The laws of MEM: a read after a write, the frame of a write, the canonical form. -/

namespace Sys2Proof.Machine

theorem memGet_memPut_same (m : Memory) (x : Nat) (v : Byte) : memGet (memPut m x v) x = some v := by
  induction m with
  | nil => simp [memPut, memGet]
  | cons c m ih =>
    obtain ⟨a, b⟩ := c
    rw [memPut]
    split
    · simp [memGet]
    · split
      · simp [memGet]
      · rename_i h
        simp [memGet, Ne.symm h, ih]

theorem memGet_memPut_other (m : Memory) {x y : Nat} (v : Byte) (h : y ≠ x) :
    memGet (memPut m x v) y = memGet m y := by
  induction m with
  | nil => simp [memPut, memGet, Ne.symm h]
  | cons c m ih =>
    obtain ⟨a, b⟩ := c
    rw [memPut]
    split
    · simp [memGet, Ne.symm h]
    · split
      · rename_i hx
        subst hx
        simp [memGet, Ne.symm h]
      · simp [memGet, ih]

/-- A write changes the one cell. -/
theorem memGet_memPut (m : Memory) (x y : Nat) (v : Byte) :
    memGet (memPut m x v) y = if y = x then some v else memGet m y := by
  by_cases h : y = x
  · subst h; simp [memGet_memPut_same]
  · simp [h, memGet_memPut_other]

theorem mem_memPut {m : Memory} {x : Nat} {v : Byte} {c : Host.Cell} (h : c ∈ memPut m x v) :
    c = (x, v) ∨ c ∈ m := by
  induction m with
  | nil => simpa [memPut] using h
  | cons d m ih =>
    obtain ⟨a, b⟩ := d
    rw [memPut] at h
    split at h
    · simpa using h
    · split at h
      · rcases List.mem_cons.1 h with h | h
        · exact .inl h
        · exact .inr (List.mem_cons_of_mem _ h)
      · rcases List.mem_cons.1 h with h | h
        · exact .inr (by simp [h])
        · exact (ih h).imp_right (List.mem_cons_of_mem _)

/-- A write keeps the canonical form. -/
theorem memPut_wf {m : Memory} (x : Nat) (v : Byte) (h : Memory.wf m) : Memory.wf (memPut m x v) := by
  induction m with
  | nil => simp [memPut, Memory.wf]
  | cons c m ih =>
    obtain ⟨a, b⟩ := c
    obtain ⟨hhead, htail⟩ := List.pairwise_cons.1 h
    rw [memPut]
    split
    · rename_i hx
      refine List.pairwise_cons.2 ⟨fun d hd => ?_, h⟩
      rcases List.mem_cons.1 hd with hd | hd
      · simpa [hd] using hx
      · exact Nat.lt_trans hx (hhead d hd)
    · split
      · rename_i hx
        subst hx
        exact List.pairwise_cons.2 ⟨hhead, htail⟩
      · rename_i h1 h2
        refine List.pairwise_cons.2 ⟨fun d hd => ?_, ih htail⟩
        rcases mem_memPut hd with hd | hd
        · subst hd; change a < x; omega
        · exact hhead d hd

/-- Erasing keeps the canonical form. -/
theorem memErase_wf {m : Memory} (a n : Nat) (h : Memory.wf m) : Memory.wf (memErase m a n) := by
  unfold memErase Memory.wf
  exact List.Pairwise.filter _ h

/-- Erasing makes the range unwritten and changes nothing else. -/
theorem memGet_memErase (m : Memory) (a n x : Nat) :
    memGet (memErase m a n) x = if a ≤ x ∧ x < a + n then none else memGet m x := by
  induction m with
  | nil => simp [memErase, memGet]
  | cons c m ih =>
    obtain ⟨y, b⟩ := c
    unfold memErase at ih ⊢
    rw [List.filter_cons]
    by_cases hy : a ≤ y ∧ y < a + n
    · have : (!(decide (a ≤ y) && decide (y < a + n))) = false := by simp [hy]
      simp only [this, Bool.false_eq_true, if_false, ih, memGet]
      by_cases hxy : y = x
      · subst hxy; simp [hy]
      · simp [hxy]
    · have : (!(decide (a ≤ y) && decide (y < a + n))) = true := by
        simp only [Bool.not_eq_true', Bool.and_eq_false_iff, decide_eq_false_iff_not]; tauto
      simp only [this, if_true, memGet, ih]
      by_cases hxy : y = x
      · subst hxy; simp [hy]
      · simp [hxy]

theorem mem_memErase {m : Memory} {a n : Nat} {c : Host.Cell} (h : c ∈ memErase m a n) : c ∈ m :=
  (List.mem_filter.1 h).1

/-- MemRead gives `n` bytes. -/
theorem memRead_length {m : Memory} {a n : Nat} {bs : List Byte} (h : memRead m a n = some bs) : bs.length = n := by
  induction n generalizing a bs with
  | zero => simp [memRead] at h; simp [← h]
  | succ n ih =>
    rw [memRead] at h
    split at h
    · rename_i b cs hb hcs
      simp only [Option.some.injEq] at h
      simp [← h, ih hcs]
    · exact absurd h (by simp)

/-- Byte `k` of MemRead is the byte of cell `a + k`. -/
theorem memRead_get {m : Memory} {a n : Nat} {bs : List Byte} (h : memRead m a n = some bs) {k : Nat} (hk : k < n) :
    memGet m (a + k) = bs[k]? := by
  induction n generalizing a bs k with
  | zero => omega
  | succ n ih =>
    rw [memRead] at h
    split at h
    · rename_i b cs hb hcs
      simp only [Option.some.injEq] at h
      subst h
      cases k with
      | zero => simpa using hb
      | succ k =>
        have := ih hcs (k := k) (by omega)
        rw [show a + (k + 1) = a + 1 + k by omega, this]
        simp
    · exact absurd h (by simp)

end Sys2Proof.Machine
end

