-- ==== Sys2Proof/Laws/Ops.lean ====
section
/-! SUPPORT. What the shared operations can do, said once each: the engine's events, their frame, and running a list of
them. -/

namespace Sys2Proof.Machine

/-! ## The operations as records -/

theorem start_eq (w : Word) (s : State) :
    start w s = { s with
      status := { s.status with done := false, err := false, errCode := 0#4, lastOp := opField w }
      engine := { s.engine with phase := .run, op := w, validated := false, pending := [], before := s.mem } } := rfl

theorem complete_eq (c : Option Word) (x : Word) (s : State) :
    complete c x s = { s with
      crcResult := c.getD s.crcResult, xferCount := x, status := { s.status with done := true }
      engine := engineIdle s.engine } := rfl

theorem errorComplete_eq (e : InvalidArgument) (s : State) :
    errorComplete e s = { s with
      xferCount := 0#32, status := { s.status with err := true, errCode := errorCode e, done := true }
      engine := engineIdle s.engine } := rfl

theorem beginCommand_raises {cs : List (Bool × InvalidArgument)} {es : List EngineEvent} {s : State}
    {e : InvalidArgument} (h : firstFailure cs = some e) : beginCommand cs es s = errorComplete e s := by
  simp [beginCommand, h]

theorem beginCommand_passes {cs : List (Bool × InvalidArgument)} {es : List EngineEvent} {s : State}
    (h : firstFailure cs = none) :
    beginCommand cs es s = s.setEngine { s.engine with validated := true, pending := es } := by
  simp [beginCommand, h]

/-! ## The small updates, field by field -/

section Updates

variable (s : State) (p : List EngineEvent) (c : Word) (b : Byte) (last : Bool)

@[simp] theorem setPending_memTop : (setPending p s).memTop = s.memTop := rfl
@[simp] theorem setPending_ie : (setPending p s).ie = s.ie := rfl
@[simp] theorem setPending_status : (setPending p s).status = s.status := rfl
@[simp] theorem setPending_regs : (setPending p s).regs = s.regs := rfl
@[simp] theorem setPending_crcResult : (setPending p s).crcResult = s.crcResult := rfl
@[simp] theorem setPending_xferCount : (setPending p s).xferCount = s.xferCount := rfl
@[simp] theorem setPending_mem : (setPending p s).mem = s.mem := rfl
@[simp] theorem setPending_out : (setPending p s).out = s.out := rfl
@[simp] theorem setPending_consumerReady : (setPending p s).consumerReady = s.consumerReady := rfl
@[simp] theorem setPending_inputs : (setPending p s).inputs = s.inputs := rfl
@[simp] theorem setPending_hostReads : (setPending p s).hostReads = s.hostReads := rfl
@[simp] theorem setPending_draws : (setPending p s).draws = s.draws := rfl
@[simp] theorem setPending_engine_phase : (setPending p s).engine.phase = s.engine.phase := rfl
@[simp] theorem setPending_engine_op : (setPending p s).engine.op = s.engine.op := rfl
@[simp] theorem setPending_engine_validated : (setPending p s).engine.validated = s.engine.validated := rfl
@[simp] theorem setPending_engine_pending : (setPending p s).engine.pending = p := rfl
@[simp] theorem setPending_engine_crc : (setPending p s).engine.crc = s.engine.crc := rfl
@[simp] theorem setPending_engine_before : (setPending p s).engine.before = s.engine.before := rfl

@[simp] theorem setCrc_memTop : (setCrc c s).memTop = s.memTop := rfl
@[simp] theorem setCrc_ie : (setCrc c s).ie = s.ie := rfl
@[simp] theorem setCrc_status : (setCrc c s).status = s.status := rfl
@[simp] theorem setCrc_regs : (setCrc c s).regs = s.regs := rfl
@[simp] theorem setCrc_crcResult : (setCrc c s).crcResult = s.crcResult := rfl
@[simp] theorem setCrc_xferCount : (setCrc c s).xferCount = s.xferCount := rfl
@[simp] theorem setCrc_mem : (setCrc c s).mem = s.mem := rfl
@[simp] theorem setCrc_out : (setCrc c s).out = s.out := rfl
@[simp] theorem setCrc_consumerReady : (setCrc c s).consumerReady = s.consumerReady := rfl
@[simp] theorem setCrc_inputs : (setCrc c s).inputs = s.inputs := rfl
@[simp] theorem setCrc_hostReads : (setCrc c s).hostReads = s.hostReads := rfl
@[simp] theorem setCrc_draws : (setCrc c s).draws = s.draws := rfl
@[simp] theorem setCrc_engine_phase : (setCrc c s).engine.phase = s.engine.phase := rfl
@[simp] theorem setCrc_engine_op : (setCrc c s).engine.op = s.engine.op := rfl
@[simp] theorem setCrc_engine_validated : (setCrc c s).engine.validated = s.engine.validated := rfl
@[simp] theorem setCrc_engine_pending : (setCrc c s).engine.pending = s.engine.pending := rfl
@[simp] theorem setCrc_engine_crc : (setCrc c s).engine.crc = c := rfl
@[simp] theorem setCrc_engine_before : (setCrc c s).engine.before = s.engine.before := rfl

@[simp] theorem emitByte_memTop : (emitByte b last s).memTop = s.memTop := rfl
@[simp] theorem emitByte_ie : (emitByte b last s).ie = s.ie := rfl
@[simp] theorem emitByte_status : (emitByte b last s).status = s.status := rfl
@[simp] theorem emitByte_regs : (emitByte b last s).regs = s.regs := rfl
@[simp] theorem emitByte_crcResult : (emitByte b last s).crcResult = s.crcResult := rfl
@[simp] theorem emitByte_xferCount : (emitByte b last s).xferCount = s.xferCount := rfl
@[simp] theorem emitByte_mem : (emitByte b last s).mem = s.mem := rfl
@[simp] theorem emitByte_out : (emitByte b last s).out = s.out ++ [⟨b, last⟩] := rfl
@[simp] theorem emitByte_consumerReady : (emitByte b last s).consumerReady = s.consumerReady := rfl
@[simp] theorem emitByte_inputs : (emitByte b last s).inputs = s.inputs := rfl
@[simp] theorem emitByte_hostReads : (emitByte b last s).hostReads = s.hostReads := rfl
@[simp] theorem emitByte_draws : (emitByte b last s).draws = s.draws := rfl
@[simp] theorem emitByte_engine_phase : (emitByte b last s).engine.phase = s.engine.phase := rfl
@[simp] theorem emitByte_engine_op : (emitByte b last s).engine.op = s.engine.op := rfl
@[simp] theorem emitByte_engine_validated : (emitByte b last s).engine.validated = s.engine.validated := rfl
@[simp] theorem emitByte_engine_pending : (emitByte b last s).engine.pending = s.engine.pending := rfl
@[simp] theorem emitByte_engine_crc : (emitByte b last s).engine.crc = s.engine.crc := rfl
@[simp] theorem emitByte_engine_before : (emitByte b last s).engine.before = s.engine.before := rfl

end Updates

/-! ## One engine event -/

/-- An event that uses a source's byte goes on exactly when the cell is written. -/
theorem withByte_next {src : ByteSource} {s t : State} {k : Byte → State} :
    withByte src s k = .next t ↔ ∃ b, sourceByte s.mem src = some b ∧ t = k b := by
  unfold withByte
  split
  · rename_i b hb
    simp [hb, eq_comm]
  · rename_i hb
    simp [hb]

theorem withByte_some {src : ByteSource} {s : State} {k : Byte → State} {b : Byte}
    (h : sourceByte s.mem src = some b) : withByte src s k = .next (k b) := by
  simp [withByte, h]

/-- What no engine event changes. -/
structure EngineKeeps (s t : State) : Prop where
  memTop : t.memTop = s.memTop
  ie : t.ie = s.ie
  regs : t.regs = s.regs
  ready : t.consumerReady = s.consumerReady
  inputs : t.inputs = s.inputs
  hostReads : t.hostReads = s.hostReads
  draws : t.draws = s.draws
  op : t.engine.op = s.engine.op
  wign : t.status.wign = s.status.wign
  lastOp : t.status.lastOp = s.status.lastOp

theorem EngineKeeps.rfl' (s : State) : EngineKeeps s s := ⟨rfl, rfl, rfl, rfl, rfl, rfl, rfl, rfl, rfl, rfl⟩

theorem EngineKeeps.trans' {s t u : State} (h : EngineKeeps s t) (k : EngineKeeps t u) : EngineKeeps s u :=
  ⟨k.memTop.trans h.memTop, k.ie.trans h.ie, k.regs.trans h.regs, k.ready.trans h.ready, k.inputs.trans h.inputs,
   k.hostReads.trans h.hostReads, k.draws.trans h.draws, k.op.trans h.op, k.wign.trans h.wign, k.lastOp.trans h.lastOp⟩

theorem complete_keeps (c : Option Word) (x : Word) (s : State) : EngineKeeps s (complete c x s) :=
  ⟨rfl, rfl, rfl, rfl, rfl, rfl, rfl, rfl, rfl, rfl⟩

theorem errorComplete_keeps (e : InvalidArgument) (s : State) : EngineKeeps s (errorComplete e s) :=
  ⟨rfl, rfl, rfl, rfl, rfl, rfl, rfl, rfl, rfl, rfl⟩

/-- Everything one engine event can do. -/
theorem perform_cases {ev : EngineEvent} {rest : List EngineEvent} {s t : State} (h : perform ev rest s = .next t) :
    (ev = .crcInit ∧ t = setPending rest (setCrc crcStart s)) ∨
    (∃ src b, ev = .crcFold src ∧ sourceByte s.mem src = some b ∧
      t = setPending rest (setCrc (crcUpdate s.engine.crc b) s)) ∨
    (∃ src b fold, ev = .emit src fold ∧ sourceByte s.mem src = some b ∧
      t = setPending rest (emitByte b false (if fold then setCrc (crcUpdate s.engine.crc b) s else s))) ∨
    (∃ k last, ev = .emitCrc k last ∧ t = setPending rest (emitByte (be4Byte (~~~s.engine.crc) k) last s)) ∨
    (∃ dst src b, ev = .store dst src ∧ sourceByte s.mem src = some b ∧
      t = setPending rest (s.setMem (memPut s.mem dst b))) ∨
    (∃ crc x, ev = .complete crc x ∧ t = complete (if crc then some (~~~s.engine.crc) else none) x s) := by
  cases ev with
  | crcInit => simp only [perform, Host.Outcome.next.injEq] at h; exact .inl ⟨rfl, h.symm⟩
  | crcFold src =>
    obtain ⟨b, hb, rfl⟩ := withByte_next.1 h
    exact .inr (.inl ⟨src, b, rfl, hb, rfl⟩)
  | emit src fold =>
    obtain ⟨b, hb, rfl⟩ := withByte_next.1 h
    exact .inr (.inr (.inl ⟨src, b, fold, rfl, hb, rfl⟩))
  | emitCrc k last =>
    simp only [perform, Host.Outcome.next.injEq] at h
    exact .inr (.inr (.inr (.inl ⟨k, last, rfl, h.symm⟩)))
  | store dst src =>
    obtain ⟨b, hb, rfl⟩ := withByte_next.1 h
    exact .inr (.inr (.inr (.inr (.inl ⟨dst, src, b, rfl, hb, rfl⟩))))
  | complete crc x =>
    simp only [perform, Host.Outcome.next.injEq] at h
    exact .inr (.inr (.inr (.inr (.inr ⟨crc, x, rfl, h.symm⟩))))

theorem perform_keeps {ev : EngineEvent} {rest : List EngineEvent} {s t : State} (h : perform ev rest s = .next t) :
    EngineKeeps s t := by
  rcases perform_cases h with ⟨-, rfl⟩ | ⟨src, b, -, -, rfl⟩ | ⟨src, b, fold, -, -, rfl⟩ | ⟨k, last, -, rfl⟩ |
    ⟨dst, src, b, -, -, rfl⟩ | ⟨crc, x, -, rfl⟩
  · exact ⟨rfl, rfl, rfl, rfl, rfl, rfl, rfl, rfl, rfl, rfl⟩
  · exact ⟨rfl, rfl, rfl, rfl, rfl, rfl, rfl, rfl, rfl, rfl⟩
  · cases fold <;> exact ⟨rfl, rfl, rfl, rfl, rfl, rfl, rfl, rfl, rfl, rfl⟩
  · exact ⟨rfl, rfl, rfl, rfl, rfl, rfl, rfl, rfl, rfl, rfl⟩
  · exact ⟨rfl, rfl, rfl, rfl, rfl, rfl, rfl, rfl, rfl, rfl⟩
  · exact complete_keeps _ _ _

/-- No engine event is refused. -/
theorem perform_not_refused (ev : EngineEvent) (rest : List EngineEvent) (s : State) (r : Refusal) :
    perform ev rest s ≠ .refused r := by
  cases ev <;> simp only [perform, withByte, ne_eq] <;> (try split) <;> simp

/-- What was pending before an event does not matter to it. -/
theorem perform_setPending (ev : EngineEvent) (rest q : List EngineEvent) (s : State) :
    perform ev rest (setPending q s) = perform ev rest s := by
  cases ev with
  | emit src fold => cases fold <;> rfl
  | crcInit | crcFold src | emitCrc k last | store dst src | complete crc x => rfl

/-! ## A list of engine events -/

/-- One step of `performAll` when the engine need not wait. -/
theorem performAll_cons {ev : EngineEvent} {rest : List EngineEvent} {s t : State}
    (hgo : (isEmission ev && !s.consumerReady) = false) (h : perform ev rest s = .next t) :
    performAll (ev :: rest) s = performAll rest t := by
  rw [performAll, hgo, h]; rfl

/-- A property of states that every engine event keeps is kept by a list of them. -/
theorem performAll_induct {P : State → State → Prop} (hrefl : ∀ s, P s s)
    (htrans : ∀ {s t u}, P s t → P t u → P s u) {evs : List EngineEvent}
    (hstep : ∀ {ev rest s t}, ev ∈ evs → perform ev rest s = .next t → P s t)
    {s t : State} (h : performAll evs s = .next t) : P s t := by
  induction evs generalizing s with
  | nil => simp only [performAll, Host.Outcome.next.injEq] at h; exact h ▸ hrefl s
  | cons ev rest ih =>
    rw [performAll] at h
    split at h
    · simp only [Host.Outcome.next.injEq] at h; exact h ▸ hrefl s
    · split at h
      · rename_i u hu
        exact htrans (hstep (List.mem_cons_self ..) hu)
          (ih (fun hm hp => hstep (List.mem_cons_of_mem _ hm) hp) h)
      · exact absurd h (by simp)
      · exact absurd h (by simp)

theorem performAll_keeps {evs : List EngineEvent} {s t : State} (h : performAll evs s = .next t) : EngineKeeps s t :=
  performAll_induct EngineKeeps.rfl' EngineKeeps.trans' (fun _ hp => perform_keeps hp) h

theorem beginCommand_keeps (cs : List (Bool × InvalidArgument)) (es : List EngineEvent) (s : State) :
    EngineKeeps s (beginCommand cs es s) := by
  unfold beginCommand
  split
  · exact errorComplete_keeps _ _
  · exact ⟨rfl, rfl, rfl, rfl, rfl, rfl, rfl, rfl, rfl, rfl⟩

theorem runCommand_keeps {cs : List (Bool × InvalidArgument)} {es : List EngineEvent} {s t : State}
    (h : runCommand cs es s = .next t) : EngineKeeps s t :=
  (beginCommand_keeps cs es s).trans' (performAll_keeps h)

/-- A command whose check fails ends with the error. -/
theorem runCommand_raises {cs : List (Bool × InvalidArgument)} {es : List EngineEvent} {s : State}
    {e : InvalidArgument} (h : firstFailure cs = some e) : runCommand cs es s = .next (errorComplete e s) := by
  rw [runCommand, beginCommand_raises h]; rfl

/-! ## Stretches of equal events, the consumer ready -/

/-- The bytes a list of sources gives, or none when one of its cells is unwritten. -/
def sourceBytes (m : Memory) : List ByteSource → Option (List Byte)
  | [] => some []
  | src :: rest =>
    match sourceByte m src, sourceBytes m rest with
    | some b, some bs => some (b :: bs)
    | _, _ => none

theorem sourceBytes_cons {m : Memory} {src : ByteSource} {rest : List ByteSource} {bs : List Byte}
    (h : sourceBytes m (src :: rest) = some bs) :
    ∃ b cs, sourceByte m src = some b ∧ sourceBytes m rest = some cs ∧ bs = b :: cs := by
  rw [sourceBytes] at h
  split at h
  · rename_i b cs hb hcs
    exact ⟨b, cs, hb, hcs, by simpa using h.symm⟩
  · exact absurd h (by simp)

theorem sourceBytes_consts (m : Memory) (bs : List Byte) : sourceBytes m (consts bs) = some bs := by
  induction bs with
  | nil => rfl
  | cons b bs ih =>
    change sourceBytes m (.const b :: consts bs) = _
    simp [sourceBytes, sourceByte, ih]

theorem cells_succ (a n : Nat) : cells a (n + 1) = .cell a :: cells (a + 1) n := by
  simp only [cells, List.range_succ_eq_map, List.map_cons, List.map_map, Nat.add_zero]
  refine congrArg _ (List.map_congr_left fun k _ => ?_)
  simp only [Function.comp_apply]
  congr 1
  omega

/-- Reading a range cell by cell is MemRead (R12). -/
theorem sourceBytes_cells (m : Memory) (a n : Nat) : sourceBytes m (cells a n) = memRead m a n := by
  induction n generalizing a with
  | zero => rfl
  | succ n ih => rw [cells_succ, sourceBytes, memRead, ih]; rfl

/-- OUT bytes that are not the last of their command. -/
def unmarked (bs : List Byte) : List OutByte := bs.map (⟨·, false⟩)

/-- The accumulator after some bytes, or as it was. -/
def foldedCrc (fold : Bool) (c : Word) (bs : List Byte) : Word := if fold then crcFoldBytes c bs else c

theorem drain_eq {s : State} {p : List EngineEvent} (h : s.engine.pending = p) : drain s = performAll p s := by
  rw [drain, h]

theorem setPending_self {s : State} {p : List EngineEvent} (h : s.engine.pending = p) : setPending p s = s := by
  subst h; rfl

/-- One event of a drain. -/
theorem drain_step {ev : EngineEvent} {rest : List EngineEvent} {s t : State} (hp : s.engine.pending = ev :: rest)
    (hgo : (isEmission ev && !s.consumerReady) = false) (h : perform ev rest s = .next t)
    (ht : t.engine.pending = rest) : drain s = drain t := by
  rw [drain_eq hp, performAll_cons hgo h, drain_eq ht]

/-- A stretch of emissions. -/
theorem drain_emits {srcs : List ByteSource} {fold : Bool} {ys : List EngineEvent} {bs : List Byte} {s : State}
    (hr : s.consumerReady = true) (hp : s.engine.pending = srcs.map (.emit · fold) ++ ys)
    (hb : sourceBytes s.mem srcs = some bs) :
    drain s = drain (setPending ys (setCrc (foldedCrc fold s.engine.crc bs) (s.setOut (s.out ++ unmarked bs)))) := by
  induction srcs generalizing s bs with
  | nil =>
    simp only [sourceBytes, Option.some.injEq] at hb
    subst hb
    have : s = setPending ys (setCrc (foldedCrc fold s.engine.crc []) (s.setOut (s.out ++ unmarked []))) := by
      simp only [foldedCrc, crcFoldBytes, List.foldl_nil, ite_self, unmarked, List.map_nil, List.append_nil]
      exact (setPending_self (by simpa using hp)).symm
    exact congrArg drain this
  | cons src srcs ih =>
    obtain ⟨b, cs, h1, h2, rfl⟩ := sourceBytes_cons hb
    have step : perform (.emit src fold) (srcs.map (.emit · fold) ++ ys) s = .next _ := withByte_some h1
    rw [drain_step (by simpa using hp) (by simp [hr]) step rfl,
      ih (bs := cs) (by cases fold <;> exact hr) rfl (by cases fold <;> exact h2)]
    cases fold <;> simp [foldedCrc, crcFoldBytes, setPending, setCrc, emitByte, unmarked, State.setEngine, State.setOut]

/-- A stretch of bytes folded into the accumulator. -/
theorem drain_crcFolds {srcs : List ByteSource} {ys : List EngineEvent} {bs : List Byte} {s : State}
    (hp : s.engine.pending = srcs.map EngineEvent.crcFold ++ ys) (hb : sourceBytes s.mem srcs = some bs) :
    drain s = drain (setPending ys (setCrc (crcFoldBytes s.engine.crc bs) s)) := by
  induction srcs generalizing s bs with
  | nil =>
    simp only [sourceBytes, Option.some.injEq] at hb
    subst hb
    exact congrArg drain (setPending_self (by simpa using hp)).symm
  | cons src srcs ih =>
    obtain ⟨b, cs, h1, h2, rfl⟩ := sourceBytes_cons hb
    have step : perform (.crcFold src) (srcs.map EngineEvent.crcFold ++ ys) s = .next _ := withByte_some h1
    rw [drain_step (by simpa using hp) rfl step rfl,
      ih (s := setPending (srcs.map EngineEvent.crcFold ++ ys) (setCrc (crcUpdate s.engine.crc b) s)) rfl h2]
    rfl

/-- The accumulator starts anew. -/
theorem drain_crcInit {ys : List EngineEvent} {s : State} (hp : s.engine.pending = .crcInit :: ys) :
    drain s = drain (setPending ys (setCrc crcStart s)) :=
  drain_step hp rfl rfl rfl

/-- One byte of the finished CRC is emitted. -/
theorem drain_emitCrc {k : Fin 4} {last : Bool} {ys : List EngineEvent} {s : State} (hr : s.consumerReady = true)
    (hp : s.engine.pending = .emitCrc k last :: ys) :
    drain s = drain (setPending ys (emitByte (be4Byte (~~~s.engine.crc) k) last s)) :=
  drain_step hp (by simp [hr]) rfl rfl

/-- The command completes. -/
theorem drain_complete {crc : Bool} {x : Word} {s : State} (hp : s.engine.pending = [.complete crc x]) :
    drain s = .next (complete (if crc then some (~~~s.engine.crc) else none) x s) := by
  rw [drain_eq hp, performAll_cons (by rfl) rfl]; rfl

/-! ## The engine does not look at the schedule -/

theorem perform_setInputs {ev : EngineEvent} {rest : List EngineEvent} {s t : State} (l : List Event)
    (h : perform ev rest s = .next t) : perform ev rest (s.setInputs l) = .next (t.setInputs l) := by
  rcases perform_cases h with ⟨rfl, rfl⟩ | ⟨src, b, rfl, hb, rfl⟩ | ⟨src, b, fold, rfl, hb, rfl⟩ | ⟨k, last, rfl, rfl⟩ |
    ⟨dst, src, b, rfl, hb, rfl⟩ | ⟨crc, x, rfl, rfl⟩
  · rfl
  · exact withByte_some hb
  · refine (withByte_some hb).trans ?_
    cases fold <;> rfl
  · rfl
  · exact withByte_some hb
  · rfl

theorem performAll_setInputs {evs : List EngineEvent} {s t : State} (l : List Event) (h : performAll evs s = .next t) :
    performAll evs (s.setInputs l) = .next (t.setInputs l) := by
  induction evs generalizing s with
  | nil => rw [performAll, Host.Outcome.next.injEq] at h; rw [← h]; rfl
  | cons ev rest ih =>
    rw [performAll] at h ⊢
    rw [State.setInputs_consumerReady]
    split at h
    · rename_i hw
      rw [Host.Outcome.next.injEq] at h
      rw [if_pos hw, h]
    · rename_i hw
      rw [if_neg hw]
      cases hp : perform ev rest s with
      | next u =>
        rw [hp] at h
        rw [perform_setInputs l hp]
        exact ih h
      | fault f => rw [hp] at h; cases h
      | refused r => rw [hp] at h; cases h

end Sys2Proof.Machine
end

