-- ==== Sys2Proof/Laws/Commands.lean ====
section
/-! SUPPORT. What the commands are made of, said once each: their events' shape, a streamed frame, a stretch of stores, and
where the scanline layout's bytes come from. -/

namespace Sys2Proof.Machine

/-- Every meaning is a run of the instruction's own checks and events. -/
theorem exec_eq_runCommand (i : Instr) (s : State) :
    exec i s = runCommand (checksOf i s.memSize s.regs) (eventsOf i s.regs) s := by
  cases i <;> rfl

/-- A meaning whose command raises. -/
theorem exec_raises {i : Instr} {s : State} {e : InvalidArgument} (h : raises i s = some e) :
    exec i s = .next (errorComplete e s) := by
  rw [exec_eq_runCommand]; exact runCommand_raises h

/-- The state of a command that has passed its checks. -/
def loaded (i : Instr) (s : State) : State :=
  s.setEngine { s.engine with validated := true, pending := eventsOf i s.regs }

/-- A meaning whose command passes its checks. -/
theorem exec_passes {i : Instr} {s : State} (h : raises i s = none) : exec i s = drain (loaded i s) := by
  rw [exec_eq_runCommand, runCommand, beginCommand_passes h]; rfl

/-- Every state that a meaning answers is reached from the error's state or from the loaded one. -/
theorem exec_cases {i : Instr} {s t : State} (h : exec i s = .next t) :
    (∃ e, raises i s = some e ∧ t = errorComplete e s) ∨ (raises i s = none ∧ drain (loaded i s) = .next t) := by
  cases hr : raises i s with
  | some e => rw [exec_raises hr, Host.Outcome.next.injEq] at h; exact .inl ⟨e, rfl, h.symm⟩
  | none => rw [exec_passes hr] at h; exact .inr ⟨rfl, h⟩

/-- The event that ends a command. -/
def isCompletion : EngineEvent → Bool
  | .complete _ _ => true
  | .crcInit => false
  | .crcFold _ => false
  | .emit _ _ => false
  | .emitCrc _ _ => false
  | .store _ _ => false

theorem frameEvents_no_completion {tag data : List ByteSource} {last : Bool} {ev : EngineEvent}
    (h : ev ∈ frameEvents tag data last) : isCompletion ev = false := by
  simp only [frameEvents, List.mem_append, List.mem_map, List.mem_cons, List.not_mem_nil, or_false] at h
  rcases h with (((⟨_, _, rfl⟩ | rfl) | ⟨_, _, rfl⟩) | ⟨_, _, rfl⟩) | rfl | rfl | rfl | rfl <;> rfl

/-- Completion is a command's last event and no other (R142, R143). -/
theorem eventsOf_shape (i : Instr) (r : Regs) :
    ∃ evs crc x, eventsOf i r = evs ++ [.complete crc x] ∧ (∀ ev ∈ evs, isCompletion ev = false) ∧
      (crc = true → i = .crc ∨ i = .chunk) := by
  cases i with
  | nop => exact ⟨[], _, _, rfl, by simp, by simp⟩
  | crc =>
    refine ⟨_, _, _, rfl, fun ev h => ?_, by simp⟩
    simp only [List.mem_append, List.mem_map, List.mem_cons, List.not_mem_nil, or_false] at h
    rcases h with rfl | ⟨_, _, rfl⟩ <;> rfl
  | chunk => exact ⟨_, _, _, rfl, fun ev h => frameEvents_no_completion h, by simp⟩
  | scanline =>
    refine ⟨_, _, _, rfl, fun ev h => ?_, by simp⟩
    obtain ⟨_, _, rfl⟩ := List.mem_map.1 h
    rfl
  | encode =>
    refine ⟨_, _, _, rfl, fun ev h => ?_, by simp⟩
    simp only [List.mem_append, List.mem_map] at h
    rcases h with ((⟨_, _, rfl⟩ | h) | h) | h
    · rfl
    all_goals exact frameEvents_no_completion h

/-! ## A streamed frame -/

/-- The frame's bytes on OUT, the final CRC byte with its marker. -/
def frameOut (tag data : List Byte) (last : Bool) : List OutByte :=
  unmarked (be4 (BitVec.ofNat 32 data.length) ++ tag ++ data) ++
    [⟨be4Byte (crc32 (tag ++ data)) 0, false⟩, ⟨be4Byte (crc32 (tag ++ data)) 1, false⟩,
     ⟨be4Byte (crc32 (tag ++ data)) 2, false⟩, ⟨be4Byte (crc32 (tag ++ data)) 3, last⟩]

theorem sourceBytes_length {m : Memory} {srcs : List ByteSource} {bs : List Byte} (h : sourceBytes m srcs = some bs) :
    bs.length = srcs.length := by
  induction srcs generalizing bs with
  | nil => simp only [sourceBytes, Option.some.injEq] at h; simp [← h]
  | cons src rest ih =>
    obtain ⟨b, cs, -, h2, rfl⟩ := sourceBytes_cons h
    simp [ih h2]

/-- The engine's streamed frame is `Frame(tag, data)` (R110, R136): the accumulator, fed as the bytes go out, gives the
CRC of `tag ++ data`. -/
theorem drain_frame {tag data : List ByteSource} {last : Bool} {ys : List EngineEvent} {tb db : List Byte} {s : State}
    (hr : s.consumerReady = true) (hp : s.engine.pending = frameEvents tag data last ++ ys)
    (ht : sourceBytes s.mem tag = some tb) (hd : sourceBytes s.mem data = some db) :
    drain s = drain (setPending ys (setCrc (crcFoldBytes crcStart (tb ++ db)) (s.setOut (s.out ++ frameOut tb db last)))) := by
  rw [drain_emits (srcs := consts (be4 (BitVec.ofNat 32 data.length))) (fold := false) hr
    (by simpa [frameEvents] using hp) (sourceBytes_consts _ _)]
  rw [drain_crcInit (setPending_engine_pending ..),
    drain_emits (srcs := tag) (fold := true) (bs := tb) (by simpa using hr) (setPending_engine_pending ..) (by simpa using ht),
    drain_emits (srcs := data) (fold := true) (bs := db) (by simpa using hr) (setPending_engine_pending ..) (by simpa using hd),
    drain_emitCrc (by simpa using hr) (setPending_engine_pending ..),
    drain_emitCrc (by simpa using hr) (setPending_engine_pending ..),
    drain_emitCrc (by simpa using hr) (setPending_engine_pending ..),
    drain_emitCrc (by simpa using hr) (setPending_engine_pending ..)]
  simp [frameOut, unmarked, foldedCrc, crcFoldBytes, setPending, setCrc, emitByte, State.setEngine, State.setOut, crc32,
    sourceBytes_length hd]

/-! ## The scanline layout -/

theorem scanRow_length {p : List Byte} {w h r : Nat} (hp : p.length = w * h * 3) (hr : r < h) :
    (scanRow p w r).length = 3 * w + 1 := by
  have h1 : (r + 1) * (3 * w) ≤ h * (3 * w) := Nat.mul_le_mul_right _ hr
  have h2 : (r + 1) * (3 * w) = r * (3 * w) + 3 * w := by ring
  have h3 : h * (3 * w) = w * h * 3 := by ring
  simp only [scanRow, List.length_cons, List.length_take, List.length_drop]
  omega

/-- Rows of equal length laid end to end, by index. -/
theorem flatMap_range_get {f : Nat → List Byte} {n h : Nat} (hn : 0 < n) (hf : ∀ r < h, (f r).length = n) (k : Nat)
    (hk : k < h * n) : ((List.range h).flatMap f)[k]? = (f (k / n))[k % n]? := by
  induction h generalizing f k with
  | zero => simp at hk
  | succ h ih =>
    rw [List.range_succ_eq_map, List.flatMap_cons, List.flatMap_map]
    by_cases hkn : k < n
    · rw [List.getElem?_append_left (by rw [hf 0 (by omega)]; exact hkn), Nat.div_eq_of_lt hkn, Nat.mod_eq_of_lt hkn]
    · have h0 : (f 0).length = n := hf 0 (by omega)
      have hk' : k - n < h * n := by rw [Nat.add_one_mul] at hk; omega
      have hdiv : k / n = (k - n) / n + 1 := Nat.div_eq_sub_div hn (by omega)
      have hmod : k % n = (k - n) % n := Nat.mod_eq_sub_mod (by omega)
      rw [List.getElem?_append_right (by omega), h0, ih (f := fun r => f (r + 1)) (fun r hr => hf _ (by omega)) _ hk',
        hdiv, hmod]

theorem flatMap_range_length {f : Nat → List Byte} {n h : Nat} (hf : ∀ r < h, (f r).length = n) :
    ((List.range h).flatMap f).length = h * n := by
  induction h with
  | zero => simp
  | succ h ih =>
    rw [List.range_succ, List.flatMap_append, List.length_append, ih fun r hr => hf r (by omega)]
    simp [hf h (by omega), Nat.succ_mul]

end Sys2Proof.Machine
end

