-- ==== Sys2Proof/Laws/Flags.lean ====
section
/-! SUPPORT. STATUS as a word, bit by bit (R23). -/

namespace Sys2Proof.Machine

theorem flagBit_getLsbD (b : Bool) {j k : Nat} (hk : k < 32) : (flagBit b j).getLsbD k = (b && decide (k = j)) := by
  cases b
  · simp [flagBit]
  · by_cases h : k = j
    · subst h; simp [flagBit, hk]
    · simp [flagBit, hk, h]
      omega

/-- Bit `k` of the STATUS word. -/
theorem statusWord_getLsbD (busy : Bool) (st : Status) {k : Nat} (hk : k < 32) :
    (statusWord busy st).getLsbD k =
      ((decide (12 ≤ k) && st.lastOp.getLsbD (k - 12)) || (decide (8 ≤ k) && st.errCode.getLsbD (k - 8)) ||
        (st.wign && decide (k = 3)) || (st.err && decide (k = 2)) || (st.done && decide (k = 1)) ||
        (busy && decide (k = 0))) := by
  simp only [statusWord, BitVec.getLsbD_or, flagBit_getLsbD _ hk, BitVec.getLsbD_shiftLeft, BitVec.getLsbD_setWidth]
  have d12 : decide (12 ≤ k) = !decide (k < 12) := by
    by_cases h : k < 12 <;> (simp [h]; try omega)
  have d8 : decide (8 ≤ k) = !decide (k < 8) := by
    by_cases h : k < 8 <;> (simp [h]; try omega)
  have e12 : decide (k - 12 < 32) = true := decide_eq_true (by omega)
  have e8 : decide (k - 8 < 32) = true := decide_eq_true (by omega)
  simp only [hk, decide_true, Bool.true_and, d12, d8, e12, e8]

end Sys2Proof.Machine
end

