-- ==== Sys2Proof/Laws/Host.lean ====
section
/-! SUPPORT. The register map by offset, and what the host's accesses can do. -/

namespace Sys2Proof.Machine

/-- Offsets are multiples of 4 inside the 4096-byte window (R37). -/
theorem regOffset_aligned (addr : Word) : regOffset addr % 4 = 0 := by simp [regOffset]

theorem regOffset_lt (addr : Word) : regOffset addr < 4096 := by
  have : (addr.extractLsb' 2 10).toNat < 2 ^ 10 := BitVec.isLt _
  simp only [regOffset]; omega

theorem regAtOffset_unmapped_low {o : Nat} (h : 0x030 < o) (h' : o < 0x400) : regAtOffset o = .unmapped := by
  unfold regAtOffset
  repeat rw [if_neg (by omega)]

theorem regAtOffset_unmapped_high {o : Nat} (h : 0x800 ≤ o) : regAtOffset o = .unmapped := by
  unfold regAtOffset
  repeat rw [if_neg (by omega)]

theorem regAtOffset_crcTable {o : Nat} (h : 0x400 ≤ o) (h' : o < 0x800) :
    regAtOffset o = .crcTable (BitVec.ofNat 8 ((o - 0x400) / 4)) := by
  unfold regAtOffset
  iterate 13 rw [if_neg (by omega)]
  rw [if_pos ⟨h, h'⟩]

/-- Everything that stands in the register map, by offset (R20). -/
theorem regAt_cases (addr : Word) :
    (regOffset addr = 0x000 ∧ regAt addr = .id) ∨ (regOffset addr = 0x004 ∧ regAt addr = .ctrl) ∨
    (regOffset addr = 0x008 ∧ regAt addr = .status) ∨ (regOffset addr = 0x00C ∧ regAt addr = .cmd) ∨
    (0x010 ≤ regOffset addr ∧ regOffset addr ≤ 0x028 ∧ ∃ a, regAt addr = .arg a) ∨
    (regOffset addr = 0x02C ∧ regAt addr = .crcResult) ∨ (regOffset addr = 0x030 ∧ regAt addr = .xferCount) ∨
    (0x030 < regOffset addr ∧ regOffset addr < 0x400 ∧ regAt addr = .unmapped) ∨
    (0x400 ≤ regOffset addr ∧ regOffset addr < 0x800 ∧
      regAt addr = .crcTable (BitVec.ofNat 8 ((regOffset addr - 0x400) / 4))) ∨
    (0x800 ≤ regOffset addr ∧ regAt addr = .unmapped) := by
  have h4 := regOffset_aligned addr
  unfold regAt
  generalize regOffset addr = o at *
  by_cases h1 : o ≤ 0x030
  · have : o = 0x000 ∨ o = 0x004 ∨ o = 0x008 ∨ o = 0x00C ∨ o = 0x010 ∨ o = 0x014 ∨ o = 0x018 ∨ o = 0x01C ∨
        o = 0x020 ∨ o = 0x024 ∨ o = 0x028 ∨ o = 0x02C ∨ o = 0x030 := by omega
    rcases this with rfl | rfl | rfl | rfl | rfl | rfl | rfl | rfl | rfl | rfl | rfl | rfl | rfl <;>
      simp [regAtOffset]
  · by_cases h2 : o < 0x400
    · simp [regAtOffset_unmapped_low (Nat.lt_of_not_le h1) h2]; omega
    · by_cases h3 : o < 0x800
      · simp [regAtOffset_crcTable (Nat.le_of_not_lt h2) h3]; omega
      · simp [regAtOffset_unmapped_high (Nat.le_of_not_lt h3)]; omega

/-- Everything a host register write can do (R147). -/
theorem regWrite_cases (n : RegName) (v : Word) (s : State) :
    regWrite n v s = s ∨ (n = .ctrl ∧ regWrite n v s = s.setIe (v.getLsbD 0)) ∨
    (n = .status ∧ regWrite n v s = acknowledge v s) ∨ (s.busy = true ∧ regWrite n v s = ignoredWrite s) ∨
    (n = .cmd ∧ s.busy = false ∧ regWrite n v s = start v s) ∨
    (s.busy = false ∧ ∃ a, n = .arg a ∧ regWrite n v s = s.setRegs (setArg s.regs a v)) := by
  cases n <;> cases h : s.busy <;> simp [regWrite, h]

end Sys2Proof.Machine
end

