-- ==== Sys2Proof/Laws/PerInstr.lean ====
section
/-! SUPPORT. Statements made per instruction: every command's word is well formed (R70, R72). -/

namespace Sys2Proof.Laws.EncodeWellFormed

/-- The word that the encoder writes for `i` has RSV = 0 and a defined opcode. -/
def Statement (i : Instr) : Prop := wordWellFormed (encode i) = true

theorem nop : Statement .nop := by rfl
theorem crc : Statement .crc := by rfl
theorem chunk : Statement .chunk := by rfl
theorem scanline : Statement .scanline := by rfl
theorem encode : Statement .encode := by rfl

end Sys2Proof.Laws.EncodeWellFormed
end

