-- ==== Sys2Proof/Laws/Step.lean ====
section
/-! SUPPORT. What a step can do, said once: a relation between states that every primitive move of the machine keeps is
kept by every step. -/

namespace Sys2Proof.Machine

/-- The primitive moves a step is made of, power-on apart. -/
structure StepMoves (P : State → State → Prop) : Prop where
  refl : ∀ s, P s s
  trans : ∀ {s t u}, P s t → P t u → P s u
  schedule : ∀ l s, P s (s.setInputs l)
  hostGets : ∀ d s, P s (hostGets d s)
  draws : ∀ n s, P s (s.setDraws n)
  consumer : ∀ b s, P s (s.setConsumerReady b)
  ie : ∀ v s, P s (s.setIe v)
  acknowledge : ∀ v s, P s (acknowledge v s)
  ignoredWrite : ∀ s, P s (ignoredWrite s)
  start : ∀ w s, s.busy = false → P s (start w s)
  regs : ∀ r s, s.busy = false → P s (s.setRegs r)
  memWrite : ∀ a b s, P s (s.setMem (memPut s.mem a b))
  perform : ∀ {ev rest s t}, perform ev rest s = .next t → P s t
  errorComplete : ∀ e s, P s (errorComplete e s)
  load : ∀ es s, P s (s.setEngine { s.engine with validated := true, pending := es })
  warmReset : ∀ s, P s (warmReset s)

variable {P : State → State → Prop}

theorem StepMoves.performAll (h : StepMoves P) {evs : List EngineEvent} {s t : State}
    (hp : performAll evs s = .next t) : P s t :=
  performAll_induct h.refl h.trans (fun _ hp => h.perform hp) hp

theorem StepMoves.beginCommand (h : StepMoves P) (cs : List (Bool × InvalidArgument)) (es : List EngineEvent)
    (s : State) : P s (beginCommand cs es s) := by
  unfold Machine.beginCommand
  split
  · exact h.errorComplete _ _
  · exact h.load _ _

theorem StepMoves.exec (h : StepMoves P) {i : Instr} {s t : State} (he : exec i s = .next t) : P s t := by
  rw [exec_eq_runCommand] at he
  exact h.trans (h.beginCommand _ _ _) (h.performAll he)

theorem StepMoves.pendingEvent (h : StepMoves P) {go : Bool} {s t : State} (hp : pendingEvent go s = .next t) :
    P s t := by
  unfold Machine.pendingEvent at hp
  split at hp
  · rw [Host.Outcome.next.injEq] at hp; exact hp ▸ h.refl s
  · split at hp
    · rw [Host.Outcome.next.injEq] at hp; exact hp ▸ h.refl s
    · exact h.perform hp

theorem StepMoves.engineEvent (h : StepMoves P) {s t : State} (he : engineEvent s = .next t) : P s t := by
  unfold Machine.engineEvent at he
  split at he
  · rw [Host.Outcome.next.injEq] at he; exact he ▸ h.refl s
  · split at he
    · exact h.pendingEvent he
    · rw [Host.Outcome.next.injEq] at he
      subst he
      unfold validateEvent
      split
      · exact h.beginCommand _ _ _
      · exact h.errorComplete _ _

theorem StepMoves.engineRun (h : StepMoves P) {s t : State} (he : engineRun s = .next t) : P s t := by
  unfold Machine.engineRun at he
  split at he
  · rw [Host.Outcome.next.injEq] at he; exact he ▸ h.refl s
  · split at he
    · exact h.performAll he
    · split at he
      · exact h.exec he
      · rw [Host.Outcome.next.injEq] at he; exact he ▸ h.errorComplete _ _

theorem StepMoves.regWrite (h : StepMoves P) (n : RegName) (v : Word) (s : State) : P s (regWrite n v s) := by
  rcases regWrite_cases n v s with e | ⟨-, e⟩ | ⟨-, e⟩ | ⟨-, e⟩ | ⟨-, hb, e⟩ | ⟨hb, a, -, e⟩ <;> rw [e]
  · exact h.refl s
  · exact h.ie _ s
  · exact h.acknowledge _ s
  · exact h.ignoredWrite s
  · exact h.start _ s hb
  · exact h.regs _ s hb

theorem StepMoves.hostMemRead (h : StepMoves P) {a : Word} {s t : State} (he : hostMemRead a s = .next t) : P s t := by
  have cell : ∀ {a v u}, hostGetsCell a v u = .next t → P u t := by
    intro a v u hu
    cases v with
    | some b => rw [hostGetsCell, Host.Outcome.next.injEq] at hu; exact hu ▸ h.hostGets _ u
    | none => exact absurd hu (by simp [hostGetsCell])
  simp only [Machine.hostMemRead] at he
  split at he
  · rw [Host.Outcome.next.injEq] at he; exact he ▸ h.hostGets _ s
  · split at he
    · exact h.trans (h.draws _ s) (cell he)
    · exact cell he

theorem StepMoves.hostMemWrite (h : StepMoves P) {a : Word} {b : Byte} {s t : State}
    (he : hostMemWrite a b s = .next t) : P s t := by
  simp only [Machine.hostMemWrite] at he
  split at he
  · rw [Host.Outcome.next.injEq] at he; exact he ▸ h.refl s
  · split at he
    · exact absurd he (by simp)
    · rw [Host.Outcome.next.injEq] at he; exact he ▸ h.memWrite _ _ s

/-- Every step but a power-on is made of the primitive moves. -/
theorem StepMoves.step (h : StepMoves P) {s t : State} (hs : step s = .next t)
    (hp : ∀ rest, s.inputs ≠ .powerOn :: rest) : P s t := by
  unfold Machine.step advance at hs
  split at hs
  · exact h.engineRun hs
  · rename_i e rest he
    refine h.trans (h.schedule rest s) ?_
    cases e <;> simp only [performEvent, Host.Outcome.next.injEq] at hs
    case hostRead a => exact hs ▸ h.hostGets _ _
    case hostWrite a v => exact hs ▸ h.regWrite _ _ _
    case memRead a => exact h.hostMemRead hs
    case memWrite a b => exact h.hostMemWrite hs
    case poll =>
      subst hs
      simp only [hostPoll]
      split
      · exact h.hostGets _ _
      · exact h.trans (h.hostGets _ _) (h.schedule _ _)
    case engine => exact h.engineEvent hs
    case run => exact h.engineRun hs
    case accept =>
      unfold acceptEvent at hs
      split at hs
      · exact h.pendingEvent hs
      · rw [Host.Outcome.next.injEq] at hs; exact hs ▸ h.refl _
    case consumer b => exact hs ▸ h.consumer _ _
    case reset => exact hs ▸ h.warmReset _
    case powerOn => exact absurd he (hp rest)

/-- A power-on step. -/
theorem step_powerOn {s : State} {rest : List Event} (h : s.inputs = .powerOn :: rest) :
    step s = .next (powerOn (s.setInputs rest)) := by
  simp [step, advance, h, performEvent]

/-! ## The ranges of a command that passes its checks -/

theorem firstFailure_none {cs : List (Bool × InvalidArgument)} (h : firstFailure cs = none) :
    ∀ c ∈ cs, c.1 = false := by
  induction cs with
  | nil => simp
  | cons c cs ih =>
    obtain ⟨b, e⟩ := c
    cases b with
    | true => exact absurd h (by simp [firstFailure])
    | false =>
      intro d hd
      rcases List.mem_cons.1 hd with rfl | hd
      · rfl
      · exact ih (by simpa [firstFailure] using h) d hd

/-- Every range that a command touches after passing its checks is valid (R53). -/
theorem passing_ranges_valid {i : Instr} {s : State} {r : Nat × Nat} (h : raises i s = none)
    (hr : r ∈ readRanges i s.regs ++ writeRanges i s.regs) : rangeValid s.memSize r.1 r.2 = true := by
  have hf := firstFailure_none h
  cases i <;> simp only [readRanges, writeRanges, List.append_nil, List.mem_cons, List.not_mem_nil, or_false,
    List.cons_append, List.nil_append] at hr <;>
    simp only [checksOf, crcChecks, chunkChecks, scanlineChecks, encodeChecks, imageChecks, List.cons_append,
      List.nil_append, List.forall_mem_cons, Bool.not_eq_false', List.not_mem_nil, false_imp_iff, implies_true,
      and_true] at hf
  case crc => subst hr; exact hf
  case chunk => rcases hr with rfl | rfl <;> simp [hf]
  case scanline => rcases hr with rfl | rfl <;> simp [hf]
  case encode => subst hr; simp [hf]

/-- So its cells are inside MEM. -/
theorem passing_range_inside {i : Instr} {s : State} {r : Nat × Nat} {a : Nat} (h : raises i s = none)
    (hr : r ∈ readRanges i s.regs ++ writeRanges i s.regs) (ha : inRange r a = true) : a < s.memSize := by
  have hv := passing_ranges_valid h hr
  simp only [rangeValid, inRange, Bool.or_eq_true, beq_iff_eq, Bool.and_eq_true, decide_eq_true_eq] at hv ha
  omega

end Sys2Proof.Machine
end

