-- ==== Sys2Proof/Laws/Safety.lean ====
section
/-! SUPPORT. The canonical form of MEM over several ranges, and which fields each part of the block's
invariant looks at. -/

namespace Sys2Proof.Machine

/-- Every memory operation keeps the canonical form: `memPut_wf`, `memErase_wf`, and the erasing of several ranges. -/
theorem eraseRanges_wf {m : Memory} (rs : List (Nat × Nat)) (h : Memory.wf m) : Memory.wf (eraseRanges m rs) := by
  induction rs generalizing m with
  | nil => exact h
  | cons r rs ih => exact ih (memErase_wf r.1 r.2 h)

theorem mem_eraseRanges {m : Memory} {rs : List (Nat × Nat)} {c : Host.Cell} (h : c ∈ eraseRanges m rs) : c ∈ m := by
  induction rs generalizing m with
  | nil => exact h
  | cons r rs ih => exact mem_memErase (ih h)

/-- The reset memory is in canonical form. -/
theorem reset_mem_wf : Memory.wf State.reset.mem := List.Pairwise.nil

end Sys2Proof.Machine

namespace Sys2Proof

open Sys2Proof.Machine

variable {s t : State}

theorem MemInv.congr (h : MemInv s) (top : t.memTop = s.memTop) (mem : t.mem = s.mem) : MemInv t :=
  ⟨by rw [mem]; exact h.canonical, by rw [mem, State.memSize, top]; exact h.inside⟩

theorem StatusInv.congr (h : StatusInv s) (phase : t.engine.phase = s.engine.phase) (status : t.status = s.status) :
    StatusInv t := by
  have hb : t.busy = s.busy := by rw [State.busy, State.busy, phase]
  exact ⟨by rw [hb, status]; exact h.busy, by rw [status]; exact h.clean, by rw [status]; exact h.code⟩

theorem EngineInv.congr (h : EngineInv s) (top : t.memTop = s.memTop) (status : t.status = s.status)
    (regs : t.regs = s.regs) (engine : t.engine = s.engine) : EngineInv t := by
  have hr : ∀ i, raises i t = raises i s := fun i => by rw [raises, raises, State.memSize, State.memSize, top, regs]
  exact ⟨by rw [status, engine]; exact h.lastOp, by rw [engine]; exact h.idle, by rw [engine]; exact h.started,
    by simpa only [hr, engine, regs] using h.running⟩

theorem BlockInv.congr (h : BlockInv s) (top : t.memTop = s.memTop) (mem : t.mem = s.mem) (status : t.status = s.status)
    (regs : t.regs = s.regs) (engine : t.engine = s.engine) : BlockInv t :=
  ⟨h.mem.congr top mem, h.status.congr (by rw [engine]) status, h.engine.congr top status regs engine⟩

end Sys2Proof
end

