-- ==== Sys2Proof/Tests/Slice0.lean ====
section
/-! SUPPORT. Tests against the spec's own vectors (95_test_vectors; the row of each test is named in its docstring), and a
witness for every obligation that has hypotheses. -/

namespace Sys2Proof.Tests

open Sys2Proof Sys2Proof.Machine

/-! ## States -/

/-- Consecutive cells. -/
def stored (a : Nat) : List Byte → Memory
  | [] => []
  | b :: bs => (a, b) :: stored (a + 1) bs

/-- A block with MEM_SIZE = 0x1000, after reset. -/
def blank : State := { State.reset with memTop := 0xFFF#32 }

/-- The tag "IEND" at 0x40, the pixel FF 00 00 at 0x100, and the registers of a 1 x 1 image: every command passes its
checks and completes. -/
def image : State :=
  { blank with
    mem := stored 0x40 tagIEND ++ stored 0x100 [0xFF#8, 0x00#8, 0x00#8]
    regs := ⟨0x100#32, 3#32, 0x200#32, 0x40#32, 4#32, 1#32, 1#32⟩ }

/-- A command has been started, and these events are scheduled. -/
def started (w : Word) (l : List Event) (s : State) : State := (start w s).setInputs l

/-- A command has been validated, and these events are scheduled. -/
def underWay (i : Instr) (l : List Event) (s : State) : State := (validateEvent (start (encode i) s)).setInputs l

/-- The next state, if there is one. -/
def nextOf : Host.Outcome State Fault Refusal → Option State
  | .next t => some t
  | .fault _ => none
  | .refused _ => none

/-- The fault, if there is one. -/
def faultOf : Host.Outcome State Fault Refusal → Option Fault
  | .next _ => none
  | .fault f => some f
  | .refused _ => none

/-- What the host sees of a state: STATUS, CRC_RESULT, XFER_COUNT. -/
def seen (s : State) : Word × Word × Word := (statusWord s.busy s.status, s.crcResult, s.xferCount)

/-- What it sees after one step that runs the command word `w`. -/
def seenAfter (w : Word) (s : State) : Option (Word × Word × Word) := (nextOf (step (started w [] s))).map seen

/-- The bytes on OUT after that step, and how many of them carry `last`. -/
def outAfter (w : Word) (s : State) : Option (List Byte × Nat) :=
  (nextOf (step (started w [] s))).map fun t => (t.out.map OutByte.byte, t.out.countP OutByte.last)

/-- The state with these argument registers. -/
def withRegs (srcAddr srcLen dstAddr tagAddr tagLen width height : Word) (s : State) : State :=
  s.setRegs ⟨srcAddr, srcLen, dstAddr, tagAddr, tagLen, width, height⟩

/-! ## Well-formedness and decoding -/

/-- R70: a nonzero bit in 31:4 is refused by the check of RSV. -/
theorem test_rsvZero_refuses : rsvZero 0x00000010#32 = false ∧ wordWellFormed 0x00000010#32 = false := by decide

/-- R72: the reserved opcodes are refused by the check of OP. -/
theorem test_opDefined_refuses : opDefined 0x00000005#32 = false ∧ wordWellFormed 0x0000000F#32 = false := by decide

/-- R82: a value that does not fit in 32 bits is refused by the script's check. -/
theorem test_pseudoWellFormed_refuses :
    pseudoWellFormed (.scanline 0#32 0x10000#32 0x10000#32 0#32) = false ∧
    pseudoWellFormed (.encode 0#32 0x10000#32 0x10000#32) = false := by decide

/-- R80: a text with a character that is not ASCII is refused by the line's check. -/
theorem test_lineWellFormed_refuses :
    lineWellFormed (.memText 0 ['a', 'é']) = false ∧ issueScript [.poll, .memText 0 ['é']] = none := by decide

/-- R80, R20: an entry of the CRC table as a script's register; R80, R52: bytes past the last 32-bit address. -/
theorem test_script_lines :
    scriptRegValue (.crcTable 128#8) blank = 0xEDB88320#32 ∧
    lineEvents (.rd (.crcTable 255#8)) = [.hostRead 0x7FC#32] ∧
    lineEvents (.mem 0xFFFFFFFF [0x01#8, 0x02#8]) = [.memWrite 0xFFFFFFFF#32 0x01#8] := by decide +kernel

/-- No command has an operand, so none is ill formed. -/
theorem test_every_instruction_wellFormed : ∀ i : Instr, i.wellFormed = true := by intro i; cases i <;> rfl

/-- R72: the words of the opcode map, bit by bit. -/
theorem test_decode_words :
    decode 0b00000000000000000000000000000000#32 = .ok .nop ∧
    decode 0b00000000000000000000000000000001#32 = .ok .crc ∧
    decode 0b00000000000000000000000000000010#32 = .ok .chunk ∧
    decode 0b00000000000000000000000000000011#32 = .ok .scanline ∧
    decode 0b00000000000000000000000000000100#32 = .ok .encode := ⟨rfl, rfl, rfl, rfl, rfl⟩

/-- R73, vectors N2, N3, N4, N5, N6: illegal words. -/
theorem test_decode_illegal :
    decode 0x00000005#32 = .error .reservedOpcode ∧ decode 0x0000000F#32 = .error .reservedOpcode ∧
    decode 0x00000010#32 = .error .reservedBits ∧ decode 0x80000001#32 = .error .reservedBits ∧
    decode 0xFFFFFFFF#32 = .error .reservedBits := ⟨rfl, rfl, rfl, rfl, rfl⟩

theorem test_decodeTableWord :
    decodeTableWord 32 3 = some .scanline ∧ decodeTableWord 32 5 = none ∧ decodeTableWord 32 0x80000001 = none := by
  decide

/-- A placed word is what the next step runs. -/
theorem test_placed_word_runs :
    step (State.reset.withFetchWord 32 0) = exec .nop (start 0#32 State.reset) ∧
    step (State.reset.withFetchWord 32 4) = exec .encode (start 4#32 State.reset) := ⟨rfl, rfl⟩

/-! ## CrcEngine -/

/-- 95 §2.1: the whole table. -/
theorem test_crcTable : (List.range 256).map (fun i => crcTable (BitVec.ofNat 8 i)) =
  [0x00000000#32, 0x77073096#32, 0xEE0E612C#32, 0x990951BA#32, 0x076DC419#32, 0x706AF48F#32, 0xE963A535#32, 0x9E6495A3#32,
   0x0EDB8832#32, 0x79DCB8A4#32, 0xE0D5E91E#32, 0x97D2D988#32, 0x09B64C2B#32, 0x7EB17CBD#32, 0xE7B82D07#32, 0x90BF1D91#32,
   0x1DB71064#32, 0x6AB020F2#32, 0xF3B97148#32, 0x84BE41DE#32, 0x1ADAD47D#32, 0x6DDDE4EB#32, 0xF4D4B551#32, 0x83D385C7#32,
   0x136C9856#32, 0x646BA8C0#32, 0xFD62F97A#32, 0x8A65C9EC#32, 0x14015C4F#32, 0x63066CD9#32, 0xFA0F3D63#32, 0x8D080DF5#32] ++
  [0x3B6E20C8#32, 0x4C69105E#32, 0xD56041E4#32, 0xA2677172#32, 0x3C03E4D1#32, 0x4B04D447#32, 0xD20D85FD#32, 0xA50AB56B#32,
   0x35B5A8FA#32, 0x42B2986C#32, 0xDBBBC9D6#32, 0xACBCF940#32, 0x32D86CE3#32, 0x45DF5C75#32, 0xDCD60DCF#32, 0xABD13D59#32,
   0x26D930AC#32, 0x51DE003A#32, 0xC8D75180#32, 0xBFD06116#32, 0x21B4F4B5#32, 0x56B3C423#32, 0xCFBA9599#32, 0xB8BDA50F#32,
   0x2802B89E#32, 0x5F058808#32, 0xC60CD9B2#32, 0xB10BE924#32, 0x2F6F7C87#32, 0x58684C11#32, 0xC1611DAB#32, 0xB6662D3D#32] ++
  [0x76DC4190#32, 0x01DB7106#32, 0x98D220BC#32, 0xEFD5102A#32, 0x71B18589#32, 0x06B6B51F#32, 0x9FBFE4A5#32, 0xE8B8D433#32,
   0x7807C9A2#32, 0x0F00F934#32, 0x9609A88E#32, 0xE10E9818#32, 0x7F6A0DBB#32, 0x086D3D2D#32, 0x91646C97#32, 0xE6635C01#32,
   0x6B6B51F4#32, 0x1C6C6162#32, 0x856530D8#32, 0xF262004E#32, 0x6C0695ED#32, 0x1B01A57B#32, 0x8208F4C1#32, 0xF50FC457#32,
   0x65B0D9C6#32, 0x12B7E950#32, 0x8BBEB8EA#32, 0xFCB9887C#32, 0x62DD1DDF#32, 0x15DA2D49#32, 0x8CD37CF3#32, 0xFBD44C65#32] ++
  [0x4DB26158#32, 0x3AB551CE#32, 0xA3BC0074#32, 0xD4BB30E2#32, 0x4ADFA541#32, 0x3DD895D7#32, 0xA4D1C46D#32, 0xD3D6F4FB#32,
   0x4369E96A#32, 0x346ED9FC#32, 0xAD678846#32, 0xDA60B8D0#32, 0x44042D73#32, 0x33031DE5#32, 0xAA0A4C5F#32, 0xDD0D7CC9#32,
   0x5005713C#32, 0x270241AA#32, 0xBE0B1010#32, 0xC90C2086#32, 0x5768B525#32, 0x206F85B3#32, 0xB966D409#32, 0xCE61E49F#32,
   0x5EDEF90E#32, 0x29D9C998#32, 0xB0D09822#32, 0xC7D7A8B4#32, 0x59B33D17#32, 0x2EB40D81#32, 0xB7BD5C3B#32, 0xC0BA6CAD#32] ++
  [0xEDB88320#32, 0x9ABFB3B6#32, 0x03B6E20C#32, 0x74B1D29A#32, 0xEAD54739#32, 0x9DD277AF#32, 0x04DB2615#32, 0x73DC1683#32,
   0xE3630B12#32, 0x94643B84#32, 0x0D6D6A3E#32, 0x7A6A5AA8#32, 0xE40ECF0B#32, 0x9309FF9D#32, 0x0A00AE27#32, 0x7D079EB1#32,
   0xF00F9344#32, 0x8708A3D2#32, 0x1E01F268#32, 0x6906C2FE#32, 0xF762575D#32, 0x806567CB#32, 0x196C3671#32, 0x6E6B06E7#32,
   0xFED41B76#32, 0x89D32BE0#32, 0x10DA7A5A#32, 0x67DD4ACC#32, 0xF9B9DF6F#32, 0x8EBEEFF9#32, 0x17B7BE43#32, 0x60B08ED5#32] ++
  [0xD6D6A3E8#32, 0xA1D1937E#32, 0x38D8C2C4#32, 0x4FDFF252#32, 0xD1BB67F1#32, 0xA6BC5767#32, 0x3FB506DD#32, 0x48B2364B#32,
   0xD80D2BDA#32, 0xAF0A1B4C#32, 0x36034AF6#32, 0x41047A60#32, 0xDF60EFC3#32, 0xA867DF55#32, 0x316E8EEF#32, 0x4669BE79#32,
   0xCB61B38C#32, 0xBC66831A#32, 0x256FD2A0#32, 0x5268E236#32, 0xCC0C7795#32, 0xBB0B4703#32, 0x220216B9#32, 0x5505262F#32,
   0xC5BA3BBE#32, 0xB2BD0B28#32, 0x2BB45A92#32, 0x5CB36A04#32, 0xC2D7FFA7#32, 0xB5D0CF31#32, 0x2CD99E8B#32, 0x5BDEAE1D#32] ++
  [0x9B64C2B0#32, 0xEC63F226#32, 0x756AA39C#32, 0x026D930A#32, 0x9C0906A9#32, 0xEB0E363F#32, 0x72076785#32, 0x05005713#32,
   0x95BF4A82#32, 0xE2B87A14#32, 0x7BB12BAE#32, 0x0CB61B38#32, 0x92D28E9B#32, 0xE5D5BE0D#32, 0x7CDCEFB7#32, 0x0BDBDF21#32,
   0x86D3D2D4#32, 0xF1D4E242#32, 0x68DDB3F8#32, 0x1FDA836E#32, 0x81BE16CD#32, 0xF6B9265B#32, 0x6FB077E1#32, 0x18B74777#32,
   0x88085AE6#32, 0xFF0F6A70#32, 0x66063BCA#32, 0x11010B5C#32, 0x8F659EFF#32, 0xF862AE69#32, 0x616BFFD3#32, 0x166CCF45#32] ++
  [0xA00AE278#32, 0xD70DD2EE#32, 0x4E048354#32, 0x3903B3C2#32, 0xA7672661#32, 0xD06016F7#32, 0x4969474D#32, 0x3E6E77DB#32,
   0xAED16A4A#32, 0xD9D65ADC#32, 0x40DF0B66#32, 0x37D83BF0#32, 0xA9BCAE53#32, 0xDEBB9EC5#32, 0x47B2CF7F#32, 0x30B5FFE9#32,
   0xBDBDF21C#32, 0xCABAC28A#32, 0x53B39330#32, 0x24B4A3A6#32, 0xBAD03605#32, 0xCDD70693#32, 0x54DE5729#32, 0x23D967BF#32,
   0xB3667A2E#32, 0xC4614AB8#32, 0x5D681B02#32, 0x2A6F2B94#32, 0xB40BBE37#32, 0xC30C8EA1#32, 0x5A05DF1B#32, 0x2D02EF8D#32] := by decide +kernel

/-- V1 to V4, V8, V9. -/
theorem test_crc32 :
    crc32 [] = 0x00000000#32 ∧ crc32 [0x00#8] = 0xD202EF8D#32 ∧ crc32 [0xFF#8] = 0xFF000000#32 ∧
    crc32 [0x61#8] = 0xE8B7BE43#32 ∧ crc32 [0xFF#8, 0xFF#8, 0xFF#8, 0xFF#8] = 0xFFFFFFFF#32 ∧
    crc32 tagIEND = 0xAE426082#32 := by decide +kernel

/-! ## The commands -/

/-- N1: NOP. -/
theorem test_nop : seenAfter 0#32 State.reset = some (0x00000002#32, 0#32, 0#32) := by decide +kernel

/-- N16: WIGN is kept by the next command. -/
theorem test_nop_keeps_wign :
    seenAfter 0#32 (blank.setStatus ⟨true, false, true, 0#4, 4#4⟩) = some (0x0000000A#32, 0#32, 0#32) := by
  decide +kernel

/-- C1: the CRC of "123456789". -/
theorem test_crc :
    seenAfter 1#32 (withRegs 0x100#32 9#32 0#32 0#32 0#32 0#32 0#32 (blank.setMem
      (stored 0x100 [0x31#8, 0x32#8, 0x33#8, 0x34#8, 0x35#8, 0x36#8, 0x37#8, 0x38#8, 0x39#8]))) =
      some (0x00001002#32, 0xCBF43926#32, 0#32) := by decide +kernel

/-- C5, C6: a range that passes the end of MEM, and one that would wrap; CRC_RESULT is kept. -/
theorem test_crc_range :
    seenAfter 1#32 (withRegs 0xFFF#32 2#32 0#32 0#32 0#32 0#32 0#32 (blank.setCrcResult 0x12345678#32)) =
      some (0x00001606#32, 0x12345678#32, 0#32) ∧
    seenAfter 1#32 (withRegs 0xFFFFFFFF#32 2#32 0#32 0#32 0#32 0#32 0#32 blank) =
      some (0x00001606#32, 0#32, 0#32) := by decide +kernel

/-- K3: a chunk with data, its OUT bytes with one `last`. -/
theorem test_chunk :
    outAfter 2#32 (withRegs 0x100#32 3#32 0#32 0x40#32 4#32 0#32 0#32
      (blank.setMem (stored 0x40 [0x41#8, 0x42#8, 0x43#8, 0x44#8] ++ stored 0x100 [0x01#8, 0x02#8, 0x03#8]))) =
      some ([0x00#8, 0x00#8, 0x00#8, 0x03#8, 0x41#8, 0x42#8, 0x43#8, 0x44#8, 0x01#8, 0x02#8, 0x03#8,
        0x9C#8, 0x58#8, 0xBE#8, 0x28#8], 1) := by decide +kernel

/-- K1: the empty chunk IEND; K6: BAD_TAG_LEN comes before the tag's range. -/
theorem test_chunk_status :
    seenAfter 2#32 (withRegs 0xFFFFFFFF#32 0#32 0#32 0x40#32 4#32 0#32 0#32 image) =
      some (0x00002002#32, 0xAE426082#32, 12#32) ∧
    seenAfter 2#32 (withRegs 0#32 0#32 0#32 0xFFFFFFF0#32 3#32 0#32 0#32 blank) =
      some (0x00002206#32, 0#32, 0#32) := by decide +kernel

/-- L2: a 2 x 2 image. -/
theorem test_scanline :
    (nextOf (step (started 3#32 [] (withRegs 0x10#32 12#32 0x40#32 0#32 0#32 2#32 2#32 (blank.setMem (stored 0x10
      [0x01#8, 0x02#8, 0x03#8, 0x04#8, 0x05#8, 0x06#8, 0x07#8, 0x08#8, 0x09#8, 0x0A#8, 0x0B#8, 0x0C#8])))))).map
      (fun t => (memRead t.mem 0x40 14, seen t)) =
      some (some [0x00#8, 0x01#8, 0x02#8, 0x03#8, 0x04#8, 0x05#8, 0x06#8, 0x00#8, 0x07#8, 0x08#8, 0x09#8, 0x0A#8,
        0x0B#8, 0x0C#8], (0x00003002#32, 0#32, 14#32)) := by decide +kernel

/-- L6, L9, L13, L16: the order of the image checks, and OVERLAP. -/
theorem test_scanline_errors :
    (seenAfter 3#32 (withRegs 0#32 11#32 0#32 0#32 0#32 0#32 2#32 blank)).map Prod.fst = some 0x00003306#32 ∧
    (seenAfter 3#32 (withRegs 0#32 11#32 0#32 0#32 0#32 2#32 2#32 blank)).map Prod.fst = some 0x00003406#32 ∧
    (seenAfter 3#32 (withRegs 0#32 0xFFFFFFFF#32 0#32 0#32 0#32 1#32 0x55555555#32 blank)).map Prod.fst =
      some 0x00003506#32 ∧
    (seenAfter 3#32 (withRegs 0x10#32 3#32 0x10#32 0#32 0#32 1#32 1#32 blank)).map Prod.fst = some 0x00003706#32 := by
  decide +kernel

/-- E1: the 61 bytes of the 1 x 1 image. -/
theorem test_encode :
    outAfter 4#32 image =
      some ([0x89#8, 0x50#8, 0x4E#8, 0x47#8, 0x0D#8, 0x0A#8, 0x1A#8, 0x0A#8] ++
        [0x00#8, 0x00#8, 0x00#8, 0x0D#8, 0x49#8, 0x48#8, 0x44#8, 0x52#8, 0x00#8, 0x00#8, 0x00#8, 0x01#8, 0x00#8,
          0x00#8, 0x00#8, 0x01#8, 0x08#8, 0x02#8, 0x00#8, 0x00#8, 0x00#8, 0x90#8, 0x77#8, 0x53#8, 0xDE#8] ++
        [0x00#8, 0x00#8, 0x00#8, 0x04#8, 0x49#8, 0x44#8, 0x41#8, 0x54#8, 0x00#8, 0xFF#8, 0x00#8, 0x00#8, 0x54#8,
          0xBB#8, 0xD3#8, 0xEA#8] ++
        [0x00#8, 0x00#8, 0x00#8, 0x00#8, 0x49#8, 0x45#8, 0x4E#8, 0x44#8, 0xAE#8, 0x42#8, 0x60#8, 0x82#8], 1) := by
  decide +kernel

/-- E1's status and count, and E8: RANGE. -/
theorem test_encode_status :
    seenAfter 4#32 image = some (0x00004002#32, 0#32, 61#32) ∧
    seenAfter 4#32 (withRegs 0xFFF#32 3#32 0#32 0#32 0#32 1#32 1#32 blank) = some (0x00004606#32, 0#32, 0#32) := by
  decide +kernel

/-! ## The shell -/

/-- N2, N4, N5: illegal words. -/
theorem test_illegal :
    seenAfter 0x00000005#32 blank = some (0x00005106#32, 0#32, 0#32) ∧
    seenAfter 0x00000010#32 blank = some (0x00000106#32, 0#32, 0#32) ∧
    seenAfter 0x80000001#32 blank = some (0x00001106#32, 0#32, 0#32) := by decide +kernel

/-- N7, N9, N10, N11: reads of the register window. -/
theorem test_register_reads :
    [0x000#32, 0x400#32, 0x404#32, 0x600#32, 0x7FC#32, 0x034#32, 0x3FC#32, 0x800#32, 0xFFC#32, 0x00C#32, 0x403#32].map
      (fun a => regValue (regAt a) image) =
    [0x4C420001#32, 0x00000000#32, 0x77073096#32, 0xEDB88320#32, 0x2D02EF8D#32, 0#32, 0#32, 0#32, 0#32, 0#32, 0#32] := by
  decide +kernel

/-- N13, N14, N15: W1C writes to STATUS = 0x00001606. -/
theorem test_status_w1c :
    [0x00000004#32, 0x00000002#32, 0x00000000#32].map
      (fun v => (seen (hostRegWrite 0x008#32 v (blank.setStatus ⟨true, true, false, 6#4, 1#4⟩))).1) =
    [0x00001002#32, 0x00001604#32, 0x00001606#32] := by decide +kernel

/-- N12, N17, N18, N19, N20: writes, idle and while busy. -/
theorem test_writes :
    ctrlWord (hostRegWrite 0x004#32 0xFFFFFFFF#32 blank).ie = 1#32 ∧
    (hostRegWrite 0x024#32 5#32 (underWay .encode [] image)).regs.width = 1#32 ∧
    (hostRegWrite 0x00C#32 0#32 (underWay .encode [] image)).status = ⟨false, false, true, 0#4, 4#4⟩ ∧
    (hostRegWrite 0x004#32 1#32 (underWay .encode [] image)).ie = true ∧
    (hostRegWrite 0x02C#32 5#32 (underWay .encode [] image)).status.wign = false := by decide +kernel

/-- Z6: a reset during SCANLINE L1; C8: the read of an unwritten cell. -/
theorem test_unwritten :
    (nextOf (step (underWay .scanline [.reset] (image.setMem (image.mem ++ [(0x200, 0xAA#8), (0x204, 0xBB#8)]))))).map
      (fun t => (memGet t.mem 0x200, memGet t.mem 0x204, memGet t.mem 0x100)) = some (none, some 0xBB#8, some 0xFF#8) ∧
    faultOf (step (started 1#32 [] (withRegs 0x200#32 1#32 0#32 0#32 0#32 0#32 0#32 blank))) =
      some (.unwrittenRead 0x200) := by decide +kernel

/-- R171, R177 for commands that will raise: a reset unwrites the destination of a SCANLINE whose ranges overlap (L17), and
a host write to the tag range of a CHUNK with TAG_LEN = 3 is a fault. -/
theorem test_raising_command_ranges :
    (nextOf (step (started 3#32 [.reset] (withRegs 0x100#32 3#32 0x102#32 0#32 0#32 1#32 1#32 image)))).map
      (fun t => (memGet t.mem 0x101, memGet t.mem 0x102)) = some (some 0x00#8, none) ∧
    faultOf (step (started 2#32 [.memWrite 0x43#32 7#8] (withRegs 0#32 0#32 0#32 0x40#32 3#32 0#32 0#32 image))) =
      some (.hostWriteHazard 0x43) := by decide +kernel

/-! ## Witnesses: for each obligation with hypotheses, what meets them all -/

theorem witness_DecodeOfEncodeIsTheInstruction : Instr.wellFormed .crc = true := rfl

/-- One word for each clause, at its ends. -/
theorem witness_EveryWordIsACommandOrIllegal :
    ((0x00000010#32).extractLsb' 4 28 ≠ 0#28 ∧ (0xFFFFFFFF#32).extractLsb' 4 28 ≠ 0#28) ∧
    ([0x0#32, 0x1#32, 0x2#32, 0x3#32, 0x4#32, 0x5#32, 0xF#32].all fun w => w.extractLsb' 4 28 == 0#28) = true ∧
    [0x0#32, 0x1#32, 0x2#32, 0x3#32, 0x4#32].map (fun w => w.extractLsb' 0 4) = [0x0#4, 0x1#4, 0x2#4, 0x3#4, 0x4#4] ∧
    5 ≤ ((0x5#32).extractLsb' 0 4).toNat ∧ 5 ≤ ((0xF#32).extractLsb' 0 4).toNat := by decide

theorem witness_StepRunsTheDecodedCommand :
    ∃ s : State, s.engine.phase = .run ∧ s.engine.validated = false ∧ decode s.engine.op = .ok .crc ∧ s.inputs = [] ∧
      (s.setInputs [.run, .poll]).inputs = .run :: [.poll] := ⟨started 1#32 [] image, rfl, rfl, rfl, rfl, rfl⟩

theorem witness_IllegalWordEndsWithIllegalCmd :
    ∃ s : State, s.engine.phase = .run ∧ s.engine.validated = false ∧
      decode s.engine.op = .error .reservedOpcode ∧ s.inputs = [] ∧
      (s.setInputs [.run]).inputs = .run :: [] ∧ (s.setInputs [.engine]).inputs = .engine :: [] :=
  ⟨started 5#32 [] image, rfl, rfl, rfl, rfl, rfl, rfl⟩

theorem witness_CmdWriteWhileIdleStarts :
    ∃ s : State, s.inputs = .hostWrite 0x00C#32 4#32 :: [] ∧ regOffset 0x00C#32 = 0x00C ∧ s.engine.phase = .idle :=
  ⟨image.setInputs [.hostWrite 0x00C#32 4#32], rfl, rfl, rfl⟩

/-- At both ends of the range of offsets. -/
theorem witness_WriteWhileBusyIsIgnored :
    ∃ s : State, s.inputs = .hostWrite 0x00C#32 0#32 :: [] ∧
      (s.setInputs [.hostWrite 0x028#32 5#32]).inputs = .hostWrite 0x028#32 5#32 :: [] ∧ s.engine.phase = .run ∧
      0x00C ≤ regOffset 0x00C#32 ∧ regOffset 0x00C#32 ≤ 0x028 ∧ 0x00C ≤ regOffset 0x028#32 ∧
      regOffset 0x028#32 ≤ 0x028 :=
  ⟨underWay .encode [.hostWrite 0x00C#32 0#32] image, rfl, rfl, rfl, by decide, by decide, by decide, by decide⟩

/-- Every clause's offset is some address's. -/
theorem witness_ArgumentWriteWhileIdle :
    (∃ s : State, s.inputs = .hostWrite 0x010#32 7#32 :: [] ∧ s.engine.phase = .idle) ∧
    regOffset 0x010#32 = 0x010 ∧ regOffset 0x014#32 = 0x014 ∧ regOffset 0x018#32 = 0x018 ∧ regOffset 0x01C#32 = 0x01C ∧
    regOffset 0x020#32 = 0x020 ∧ regOffset 0x024#32 = 0x024 ∧ regOffset 0x028#32 = 0x028 :=
  ⟨⟨image.setInputs [.hostWrite 0x010#32 7#32], rfl, rfl⟩, by decide⟩

theorem witness_CtrlWriteSetsIe :
    ∃ s : State, s.inputs = .hostWrite 0x004#32 1#32 :: [] ∧ regOffset 0x004#32 = 0x004 :=
  ⟨image.setInputs [.hostWrite 0x004#32 1#32], rfl, rfl⟩

theorem witness_StatusWriteClearsTheBitsWrittenOne :
    ∃ s : State, s.inputs = .hostWrite 0x008#32 0xE#32 :: [] ∧ regOffset 0x008#32 = 0x008 :=
  ⟨image.setInputs [.hostWrite 0x008#32 0xE#32], rfl, rfl⟩

/-- ID, and both ends of the offsets from CRC_RESULT up. -/
theorem witness_ReadOnlyAndUnmappedWritesAreIgnored :
    (∃ s : State, s.inputs = .hostWrite 0x02C#32 5#32 :: []) ∧
    regOffset 0x000#32 = 0x000 ∧ 0x02C ≤ regOffset 0x02C#32 ∧ 0x02C ≤ regOffset 0xFFC#32 ∧
    (∃ s : State, s.inputs = .hostRead 0x034#32 :: []) ∧ 0x034 ≤ regOffset 0x034#32 ∧ regOffset 0x3FC#32 ≤ 0x3FC ∧
    0x800 ≤ regOffset 0x800#32 :=
  ⟨⟨image.setInputs [.hostWrite 0x02C#32 5#32], rfl⟩, by decide, by decide, by decide,
   ⟨image.setInputs [.hostRead 0x034#32], rfl⟩, by decide⟩

/-- Every clause's offset is some address's, at the ends of its range. -/
theorem witness_HostReadReturnsTheRegister :
    (∃ s : State, s.inputs = .hostRead 0x400#32 :: []) ∧
    [0x000#32, 0x004#32, 0x008#32, 0x00C#32, 0x010#32, 0x014#32, 0x018#32, 0x01C#32, 0x020#32, 0x024#32, 0x028#32,
      0x02C#32, 0x030#32].map regOffset = [0x000, 0x004, 0x008, 0x00C, 0x010, 0x014, 0x018, 0x01C, 0x020, 0x024, 0x028,
      0x02C, 0x030] ∧
    [0x034#32, 0x3FC#32, 0x400#32, 0x7FC#32, 0x800#32, 0xFFC#32].map regOffset =
      [0x034, 0x3FC, 0x400, 0x7FC, 0x800, 0xFFC] :=
  ⟨⟨image.setInputs [.hostRead 0x400#32], rfl⟩, by decide⟩

/-- A range that ends with MEM, and an empty range outside it. -/
theorem witness_CrcResultIsTheCrcOfTheRange :
    (∃ s : State, s.regs.srcAddr.toNat + s.regs.srcLen.toNat = s.memSize ∧
      memRead s.mem s.regs.srcAddr.toNat s.regs.srcLen.toNat = some [0x07#8]) ∧
    (∃ s : State, s.regs.srcLen = 0#32 ∧ s.memSize < s.regs.srcAddr.toNat ∧
      memRead s.mem s.regs.srcAddr.toNat s.regs.srcLen.toNat = some []) :=
  ⟨⟨withRegs 0xFFF#32 1#32 0#32 0#32 0#32 0#32 0#32 (blank.setMem [(0xFFF, 0x07#8)]), by decide, rfl⟩,
   ⟨withRegs 0xFFFFFFFF#32 0#32 0#32 0#32 0#32 0#32 0#32 blank, by decide, by decide, rfl⟩⟩

theorem witness_ChunkEmitsTheFrame :
    ∃ s : State, s.consumerReady = true ∧ s.regs.tagLen = 4#32 ∧ s.regs.tagAddr.toNat + 4 ≤ s.memSize ∧
      s.regs.srcAddr.toNat + s.regs.srcLen.toNat ≤ s.memSize ∧
      memRead s.mem s.regs.tagAddr.toNat 4 = some tagIEND ∧
      memRead s.mem s.regs.srcAddr.toNat s.regs.srcLen.toNat = some [0xFF#8, 0x00#8, 0x00#8] :=
  ⟨image, rfl, rfl, by decide, by decide, rfl, rfl⟩

/-- L19 and L20: a destination just after the source, and one just before it. -/
theorem witness_ScanlineWritesTheLayout :
    ∀ d, d = 0x103#32 ∨ d = 0xFC#32 →
      ∃ s : State, s.regs.dstAddr = d ∧ s.regs.width ≠ 0#32 ∧ s.regs.height ≠ 0#32 ∧
        s.regs.srcLen.toNat = s.regs.width.toNat * s.regs.height.toNat * 3 ∧
        s.regs.height.toNat + s.regs.srcLen.toNat ≤ 0xFFFFFFFF ∧
        s.regs.srcAddr.toNat + s.regs.srcLen.toNat ≤ s.memSize ∧
        s.regs.dstAddr.toNat + (s.regs.height.toNat + s.regs.srcLen.toNat) ≤ s.memSize ∧
        (s.regs.dstAddr.toNat + (s.regs.height.toNat + s.regs.srcLen.toNat) ≤ s.regs.srcAddr.toNat ∨
          s.regs.srcAddr.toNat + s.regs.srcLen.toNat ≤ s.regs.dstAddr.toNat) ∧
        memRead s.mem s.regs.srcAddr.toNat s.regs.srcLen.toNat = some [0xFF#8, 0x00#8, 0x00#8] := by
  rintro d (rfl | rfl)
  · exact ⟨image.setRegs { image.regs with dstAddr := 0x103#32 }, by decide⟩
  · exact ⟨image.setRegs { image.regs with dstAddr := 0xFC#32 }, by decide⟩

theorem witness_EncodeEmitsThePngStream :
    ∃ s : State, s.consumerReady = true ∧ s.regs.width ≠ 0#32 ∧ s.regs.height ≠ 0#32 ∧
      s.regs.srcLen.toNat = s.regs.width.toNat * s.regs.height.toNat * 3 ∧
      s.regs.height.toNat + s.regs.srcLen.toNat ≤ 0xFFFFFFFF ∧
      s.regs.srcAddr.toNat + s.regs.srcLen.toNat ≤ s.memSize ∧
      memRead s.mem s.regs.srcAddr.toNat s.regs.srcLen.toNat = some [0xFF#8, 0x00#8, 0x00#8] := ⟨image, by decide⟩

theorem witness_EmittingCommandsWaitForTheConsumer :
    ∀ i : Instr, i = .chunk ∨ i = .encode →
      ∃ s : State, s.consumerReady = false ∧ s.engine.phase = .run ∧ s.engine.validated = false ∧
        decode s.engine.op = .ok i ∧ raises i s = none := by
  rintro i (rfl | rfl)
  · exact ⟨started 2#32 [] (image.setConsumerReady false), rfl, rfl, rfl, rfl, by decide⟩
  · exact ⟨started 4#32 [] (image.setConsumerReady false), rfl, rfl, rfl, rfl, by decide⟩

/-- K6, K10, K11, C5 for CRC and CHUNK; L7, L9, L13, L14, L15, L17 and a pass for SCANLINE: a state for each clause. -/
theorem witness_FirstFailingCheckIsRaised :
    [raises .crc (withRegs 0xFFF#32 2#32 0#32 0#32 0#32 0#32 0#32 blank),
     raises .crc image,
     raises .chunk (withRegs 0#32 0#32 0#32 0xFFFFFFF0#32 3#32 0#32 0#32 blank),
     raises .chunk (withRegs 0#32 0#32 0#32 0xFFD#32 4#32 0#32 0#32 blank),
     raises .chunk (withRegs 0x1000#32 1#32 0#32 0x40#32 4#32 0#32 0#32 blank),
     raises .chunk image,
     raises .scanline (withRegs 0#32 0#32 0#32 0#32 0#32 2#32 0#32 blank),
     raises .scanline (withRegs 0#32 11#32 0#32 0#32 0#32 2#32 2#32 blank),
     raises .scanline (withRegs 0#32 0xFFFFFFFF#32 0#32 0#32 0#32 1#32 0x55555555#32 blank),
     raises .scanline (withRegs 0xFFE#32 3#32 0#32 0#32 0#32 1#32 1#32 blank),
     raises .scanline (withRegs 0#32 3#32 0xFFD#32 0#32 0#32 1#32 1#32 blank),
     raises .scanline (withRegs 0x10#32 3#32 0x12#32 0#32 0#32 1#32 1#32 blank),
     raises .scanline image] =
    [some .range, none, some .badTagLen, some .range, some .range, none, some .zeroDim, some .pixelLen,
     some .lenOverflow, some .range, some .range, some .overlap, none] := by decide +kernel

/-- A check that fails, and an illegal word. -/
theorem witness_RaisedErrorIsRecorded :
    raises .chunk State.reset = some .badTagLen ∧
    (∃ s : State, s.inputs = .engine :: [] ∧ s.engine.phase = .run ∧ s.engine.validated = false ∧
      decode s.engine.op = .ok .chunk ∧ raises .chunk s = some .badTagLen) ∧
    (∃ s : State, s.inputs = .engine :: [] ∧ s.engine.phase = .run ∧ s.engine.validated = false ∧
      decode s.engine.op = .error .reservedOpcode) :=
  ⟨by decide, ⟨started 2#32 [.engine] blank, rfl, rfl, rfl, rfl, by decide⟩, ⟨started 5#32 [.engine] blank, rfl, rfl, rfl, rfl⟩⟩

theorem witness_ErrorsArePrecise :
    ∃ s : State, s.inputs = .hostWrite 0x00C#32 2#32 :: .run :: [.poll] ∧ regOffset 0x00C#32 = 0x00C ∧
      s.engine.phase = .idle ∧ decode 2#32 = .ok .chunk ∧ raises .chunk s = some .badTagLen ∧
      (s.setInputs [.hostWrite 0x00C#32 5#32, .run]).inputs = .hostWrite 0x00C#32 5#32 :: .run :: [] ∧
      decode 5#32 = .error .reservedOpcode :=
  ⟨blank.setInputs [.hostWrite 0x00C#32 2#32, .run, .poll], rfl, rfl, rfl, rfl, by decide, rfl, rfl⟩

theorem witness_ReadOfAnUnwrittenCellFaults :
    ∃ s : State, s.consumerReady = true ∧ raises .scanline s = none ∧
      (0x101, 3) ∈ readRanges .scanline s.regs ∧ memRead s.mem 0x101 3 = none :=
  ⟨image.setRegs { image.regs with srcAddr := 0x101#32 }, by decide⟩

/-- Every command runs to its next state. -/
theorem witness_CommandsWriteNoArgument : ∀ i : Instr, ∃ t, exec i image = .next t := by
  intro i; cases i <;> exact ⟨_, rfl⟩

theorem witness_OnlyCrcAndChunkWriteCrcResult :
    (∃ t, exec .encode image = .next t) ∧ (∃ t, exec .crc (withRegs 0xFFF#32 2#32 0#32 0#32 0#32 0#32 0#32 blank) = .next t) ∧
    raises .crc (withRegs 0xFFF#32 2#32 0#32 0#32 0#32 0#32 0#32 blank) ≠ none := ⟨⟨_, rfl⟩, ⟨_, rfl⟩, by decide⟩

theorem witness_ResultsChangeOnlyAtCompletion :
    ∃ s t : State, s.busy = true ∧ step s = .next t ∧ t.busy = true := ⟨underWay .encode [.engine] image, _, rfl, rfl, rfl⟩

/-- Cells just outside the destination. -/
theorem witness_OnlyScanlineWritesMem :
    (∃ t, exec .scanline image = .next t) ∧ (∃ t, exec .crc image = .next t) ∧ 0x1FF < image.regs.dstAddr.toNat ∧
    image.regs.dstAddr.toNat + (image.regs.height.toNat + image.regs.srcLen.toNat) ≤ 0x204 :=
  ⟨⟨_, rfl⟩, ⟨_, rfl⟩, by decide, by decide⟩

theorem witness_OutOnlyGrows :
    ∃ s t : State, step s = .next t ∧ (∀ rest, s.inputs ≠ .powerOn :: rest) ∧ t.out = [⟨0x89#8, false⟩] :=
  ⟨underWay .encode [.engine] image, _, rfl, by simp [underWay], rfl⟩

/-- An event of each form. -/
theorem witness_EngineStaysInsideItsRanges :
    (∀ i : Instr, raises i image = none) ∧
    .crcFold (.cell 0x102) ∈ eventsOf .crc image.regs ∧ .emit (.cell 0x43) true ∈ eventsOf .chunk image.regs ∧
    .store 0x203 (.cell 0x102) ∈ eventsOf .scanline image.regs ∧ .store 0x200 (.const 0#8) ∈ eventsOf .scanline image.regs := by
  refine ⟨fun i => by cases i <;> decide, ?_⟩
  decide +kernel

theorem witness_IrqIsIeAndDone :
    ∃ s t : State, s.busy = true ∧ exec .nop s = .next t ∧ t.busy = false ∧ t.irq = true :=
  ⟨started 0#32 [] (blank.setIe true), _, rfl, rfl, rfl, rfl⟩

/-- S6, E10: the same pixels at two addresses. -/
theorem witness_EncodeOutputDependsOnlyOnTheImage :
    ∃ s s' : State, s.consumerReady = true ∧ s'.consumerReady = true ∧ s.regs.srcAddr ≠ s'.regs.srcAddr ∧
      s.regs.width = s'.regs.width ∧ s.regs.height = s'.regs.height ∧ raises .encode s = none ∧ raises .encode s' = none ∧
      memRead s.mem s.regs.srcAddr.toNat s.regs.srcLen.toNat = some [0xFF#8, 0x00#8, 0x00#8] ∧
      memRead s'.mem s'.regs.srcAddr.toNat s'.regs.srcLen.toNat = some [0xFF#8, 0x00#8, 0x00#8] ∧
      (nextOf (exec .encode s)).isSome ∧ (nextOf (exec .encode s')).isSome :=
  ⟨image, (image.setRegs { image.regs with srcAddr := 0x800#32 }).setMem (stored 0x800 [0xFF#8, 0x00#8, 0x00#8]), by
    decide +kernel⟩

theorem witness_FrameLayout : tagIEND.length = 4 ∧ [0x01#8, 0x02#8].length ≤ 0xFFFFFFFF := by decide

/-- L3: W = 1, H = 3; a filter byte, a pixel byte, the last byte. -/
theorem witness_ScanIndexForm :
    ∃ p : List Byte, p.length = 1 * 3 * 3 ∧ 0 < 1 ∧ 0 < 3 ∧ (0 < 3 * (3 * 1 + 1) ∧ 0 % (3 * 1 + 1) = 0) ∧
      (11 < 3 * (3 * 1 + 1) ∧ 11 % (3 * 1 + 1) ≠ 0) ∧ 3 * (3 * 1 + 1) ≤ 12 := ⟨List.replicate 9 5#8, by decide⟩

theorem witness_ScanLengthAndFilterBytes :
    ∃ p : List Byte, p.length = 1 * 3 * 3 ∧ 0 < 1 ∧ 0 < 3 ∧ 0 < 3 ∧ 2 < 3 := ⟨List.replicate 9 5#8, by decide⟩

theorem witness_PngLength :
    ∃ p : List Byte, p.length = (1#32).toNat * (3#32).toNat * 3 ∧ 1#32 ≠ 0#32 ∧ 3#32 ≠ 0#32 :=
  ⟨List.replicate 9 5#8, by decide⟩

/-- The last cell of MEM, beside a running command. -/
theorem witness_HostMemWriteStoresTheByte :
    ∃ s : State, s.inputs = .memWrite 0xFFF#32 7#8 :: [] ∧ (0xFFF#32).toNat + 1 = s.memSize ∧
      ((runningRanges s).any fun q => inRange q (0xFFF#32).toNat) = false :=
  ⟨underWay .encode [.memWrite 0xFFF#32 7#8] image, rfl, by decide, by decide⟩

/-- A written cell and an unwritten one. -/
theorem witness_HostMemReadReturnsTheByte :
    ∃ s : State, s.inputs = .memRead 0x100#32 :: [] ∧ (0x100#32).toNat < s.memSize ∧
      ((runningWrites s).any fun q => inRange q (0x100#32).toNat) = false ∧ memGet s.mem (0x100#32).toNat = some 0xFF#8 ∧
      (s.setInputs [.memRead 0xFFF#32]).inputs = .memRead 0xFFF#32 :: [] ∧ (0xFFF#32).toNat < s.memSize ∧
      ((runningWrites s).any fun q => inRange q (0xFFF#32).toNat) = false ∧ memGet s.mem (0xFFF#32).toNat = none :=
  ⟨underWay .encode [.memRead 0x100#32] image, rfl, by decide, by decide, by decide, rfl, by decide, by decide, by decide⟩

/-- The first address above MEM. -/
theorem witness_HostMemAccessAboveMemSize :
    ∃ s : State, s.memSize = (0x1000#32).toNat ∧ s.inputs = .memWrite 0x1000#32 7#8 :: [] ∧
      (s.setInputs [.memRead 0x1000#32]).inputs = .memRead 0x1000#32 :: [] :=
  ⟨image.setInputs [.memWrite 0x1000#32 7#8], by decide, rfl, rfl⟩

/-- A range of each command, the first and the last cell of SCANLINE's destination, and a command that will raise. -/
theorem witness_HostWriteUnderACommandFaults :
    (∀ i : Instr, i ≠ .nop →
      ∃ s : State, s.inputs = .memWrite 0x100#32 7#8 :: [] ∧ s.engine.phase = .run ∧ decode s.engine.op = .ok i ∧
        (0x100#32).toNat < s.memSize ∧ (s.regs.srcAddr.toNat, s.regs.srcLen.toNat) = (0x100, 3)) ∧
    image.regs.tagAddr.toNat = 0x40 ∧ (0x40 ≤ (0x43#32).toNat ∧ (0x43#32).toNat < 0x40 + 4) ∧
    (image.regs.dstAddr.toNat, image.regs.height.toNat + image.regs.srcLen.toNat) = (0x200, 4) ∧
    (0x200 ≤ (0x200#32).toNat ∧ (0x203#32).toNat < 0x200 + 4) ∧
    (∃ s : State, s.inputs = .memWrite 0x43#32 7#8 :: [] ∧ s.engine.phase = .run ∧ decode s.engine.op = .ok .chunk ∧
      (0x43#32).toNat < s.memSize ∧ raises .chunk s = some .badTagLen) := by
  refine ⟨fun i hi => ?_, by decide, by decide, by decide, by decide,
    ⟨started 2#32 [.memWrite 0x43#32 7#8] (withRegs 0#32 0#32 0#32 0x40#32 3#32 0#32 0#32 image), rfl, rfl, rfl, by
      decide, by decide⟩⟩
  cases i with
  | nop => exact absurd rfl hi
  | crc => exact ⟨started 1#32 [.memWrite 0x100#32 7#8] image, rfl, rfl, rfl, by decide, by decide⟩
  | chunk => exact ⟨started 2#32 [.memWrite 0x100#32 7#8] image, rfl, rfl, rfl, by decide, by decide⟩
  | scanline => exact ⟨started 3#32 [.memWrite 0x100#32 7#8] image, rfl, rfl, rfl, by decide, by decide⟩
  | encode => exact ⟨started 4#32 [.memWrite 0x100#32 7#8] image, rfl, rfl, rfl, by decide, by decide⟩

theorem witness_HostReadOfDestinationIsOldOrNew :
    ∃ s : State, s.inputs = .memRead 0x203#32 :: [] ∧ s.engine.phase = .run ∧ decode s.engine.op = .ok .scanline ∧
      raises .scanline s = none ∧
      memRead s.mem s.regs.srcAddr.toNat s.regs.srcLen.toNat = some [0xFF#8, 0x00#8, 0x00#8] ∧
      inRange (s.regs.dstAddr.toNat, s.regs.height.toNat + s.regs.srcLen.toNat) (0x203#32).toNat = true :=
  ⟨underWay .scanline [.memRead 0x203#32] image, rfl, rfl, rfl, by decide, by decide, by decide⟩

/-- A byte of the stream, and the command's last byte. -/
theorem witness_AcceptMovesOneByte :
    (∃ (s : State) (more : List EngineEvent), s.inputs = .accept :: [] ∧ s.engine.phase = .run ∧
      s.engine.validated = true ∧ s.engine.pending = .emit (.const 0x89#8) false :: more ∧
      sourceByte s.mem (.const 0x89#8) = some 0x89#8) ∧
    (∃ (s : State) (more : List EngineEvent), s.inputs = .accept :: [] ∧ s.engine.phase = .run ∧
      s.engine.validated = true ∧ s.engine.pending = .emitCrc 3 true :: more) :=
  ⟨⟨underWay .encode [.accept] (image.setConsumerReady false), _, rfl, rfl, rfl, rfl, rfl⟩,
   ⟨setPending [.emitCrc 3 true, .complete true 15#32] (underWay .chunk [.accept] (image.setConsumerReady false)), _, rfl,
    rfl, rfl, rfl⟩⟩

theorem witness_StalledBlockStaysBusy :
    ∃ (s : State) (ev : EngineEvent) (more : List EngineEvent), s.inputs = [] ∧ s.consumerReady = false ∧
      s.engine.phase = .run ∧ s.engine.validated = true ∧ s.engine.pending = ev :: more ∧ isEmission ev = true :=
  ⟨underWay .encode [] (image.setConsumerReady false), _, _, rfl, rfl, rfl, rfl, rfl, rfl⟩

theorem witness_EngineEventsReachTheMeaning :
    ∃ s t : State, s.engine.phase = .run ∧ s.engine.validated = false ∧ decode s.engine.op = .ok .scanline ∧
      s.consumerReady = true ∧ exec .scanline s = .next t := ⟨started 3#32 [] image, _, rfl, rfl, rfl, rfl, rfl⟩

/-- A command, and an illegal word. -/
theorem witness_PollEndsWhenTheCommandCompletes :
    (∃ s t : State, s.inputs = [.poll] ∧ s.status.done = false ∧ s.engine.phase = .run ∧ s.engine.validated = false ∧
      s.consumerReady = true ∧ decode s.engine.op = .ok .encode ∧ exec .encode s = .next t) ∧
    (∃ s : State, s.inputs = [.poll] ∧ s.status.done = false ∧ s.engine.phase = .run ∧ s.engine.validated = false ∧
      s.consumerReady = true ∧ decode s.engine.op = .error .reservedOpcode) :=
  ⟨⟨started 4#32 [.poll] image, _, rfl, rfl, rfl, rfl, rfl, rfl, rfl⟩,
   ⟨started 5#32 [.poll] image, rfl, rfl, rfl, rfl, rfl, rfl⟩⟩

theorem witness_ResetSetsEveryRegister :
    ∃ s : State, s.inputs = .reset :: [] ∧ s.engine.phase = .idle := ⟨image.setInputs [.reset], rfl, rfl⟩

/-- A command that is not SCANLINE, an illegal word, a SCANLINE that passes its checks and one that raises. -/
theorem witness_ResetDuringACommand :
    (∃ s : State, s.inputs = .reset :: [] ∧ s.engine.phase = .run ∧ decode s.engine.op = .ok .encode) ∧
    (∃ s : State, s.inputs = .reset :: [] ∧ s.engine.phase = .run ∧ decode s.engine.op = .error .reservedOpcode) ∧
    (∃ s : State, s.inputs = .reset :: [] ∧ s.engine.phase = .run ∧ decode s.engine.op = .ok .scanline ∧
      raises .scanline s = none) ∧
    (∃ s : State, s.inputs = .reset :: [] ∧ s.engine.phase = .run ∧ decode s.engine.op = .ok .scanline ∧
      raises .scanline s = some .zeroDim) :=
  ⟨⟨underWay .encode [.reset] image, rfl, rfl, rfl⟩, ⟨started 5#32 [.reset] image, rfl, rfl, rfl⟩,
   ⟨underWay .scanline [.reset] image, rfl, rfl, rfl, by decide⟩, ⟨started 3#32 [.reset] blank, rfl, rfl, rfl, by decide⟩⟩

theorem witness_PowerOnErasesMemAndOut : ∃ s : State, s.inputs = .powerOn :: [] ∧ s.mem ≠ [] :=
  ⟨image.setInputs [.powerOn], rfl, by decide⟩

/-- A started command meets the invariant and goes on. -/
theorem witness_EveryStepKeepsTheInvariant : ∃ s t : State, BlockInv s ∧ step s = .next t := by
  refine ⟨started 4#32 [] image, _, ⟨⟨?_, ?_⟩, ⟨?_, ?_, ?_⟩, ⟨rfl, ?_, ?_, ?_⟩⟩, rfl⟩
  · show Memory.wf image.mem; decide
  · show ∀ c ∈ image.mem, c.1 < image.memSize; decide
  · exact fun _ => ⟨rfl, rfl, rfl⟩
  · exact fun _ => rfl
  · exact fun h => absurd h (by decide)
  · exact fun h => absurd h (by decide)
  · exact fun _ _ => rfl
  · exact fun _ h => absurd h (by decide)

theorem witness_MemSizeNeverChanges : ∃ s t : State, step s = .next t ∧ s.memSize = 0x1000 :=
  ⟨image.setInputs [.reset], _, rfl, by decide⟩

/-- A block that goes on, and one whose step faults. -/
theorem witness_InstancesShareNoState :
    ∃ (bs : List State) (s s' : State), bs[0]? = some s ∧ (∃ t, step s = .next t) ∧ bs[1]? = some s' ∧
      (∃ f, step s' = .fault f) :=
  ⟨[started 0#32 [] blank, started 1#32 [] (withRegs 0x200#32 1#32 0#32 0#32 0#32 0#32 0#32 blank)], _, _, rfl, ⟨_, rfl⟩, rfl,
   ⟨_, rfl⟩⟩

/-! ## The reset state -/

/-- R20: what the host reads at every listed offset after reset. -/
theorem test_reset_registers :
    [0x000#32, 0x004#32, 0x008#32, 0x00C#32, 0x010#32, 0x014#32, 0x018#32, 0x01C#32, 0x020#32, 0x024#32, 0x028#32,
      0x02C#32, 0x030#32].map (fun a => regValue (regAt a) State.reset) = 0x4C420001#32 :: List.replicate 12 0#32 := by
  decide

end Sys2Proof.Tests
end

/-! # Proofs: the scope's byte order (R10) -/

namespace Sys2Proof.Machine

/-- Byte `k` of `BE4(v)` is the base-256 digit of `v` with weight `2 ^ (24 - 8 * k)` (R10). -/
@[simp] theorem be4Byte_toNat (v : Word) (k : Fin 4) :
    (be4Byte v k).toNat = v.toNat / 2 ^ (24 - 8 * k.val) % 256 := by
  simp [be4Byte, BitVec.extractLsb'_toNat, Nat.shiftRight_eq_div_pow]

@[simp] theorem be4_length (v : Word) : (be4 v).length = 4 := rfl

/-- Reading `BE4(v)` in base 256, first byte most significant, sums the four bytes with their weights. -/
theorem foldl_base256_be4 (v : Word) :
    (be4 v).foldl (fun n b => n * 256 + b.toNat) 0 =
      (((be4Byte v 0).toNat * 256 + (be4Byte v 1).toNat) * 256 + (be4Byte v 2).toNat) * 256 +
        (be4Byte v 3).toNat := by
  simp only [be4, List.foldl_cons, List.foldl_nil, Nat.zero_mul, Nat.zero_add]

/-- A number below `2 ^ 32` is the sum of its four base-256 digits. -/
theorem base256_digits_sum {n : Nat} (hn : n < 2 ^ 32) :
    ((n / 2 ^ 24 % 256 * 256 + n / 2 ^ 16 % 256) * 256 + n / 2 ^ 8 % 256) * 256 + n / 2 ^ 0 % 256 = n := by
  omega

/-- Settles O37: the four bytes of `BE4(v)` are the base-256 digits of `v`, the most significant first. -/
theorem bigEndianFieldReadsBack : Obligations.BigEndianFieldReadsBack := by
  intro v
  refine ⟨?_, be4_length v⟩
  rw [foldl_base256_be4]
  simp only [be4Byte_toNat]
  exact base256_digits_sum v.isLt

end Sys2Proof.Machine

/-! # Proofs: the register window (10_state R24, R36) -/

namespace Sys2Proof.Machine

/-- A host-write step (R147). -/
theorem step_hostWrite {s : State} {addr v : Word} {rest : List Event} (h : s.inputs = .hostWrite addr v :: rest) :
    step s = .next (hostRegWrite addr v (s.setInputs rest)) := by
  simp [step, advance, h, performEvent]

/-- A host-read step (R146). -/
theorem step_hostRead {s : State} {addr : Word} {rest : List Event} (h : s.inputs = .hostRead addr :: rest) :
    step s = .next (hostRegRead addr (s.setInputs rest)) := by
  simp [step, advance, h, performEvent]

theorem regAt_status {addr : Word} (h : regOffset addr = 0x008) : regAt addr = .status := by
  simp [regAt, regAtOffset, h]

/-- Nothing stands between XFER_COUNT and the CRC table, nor above the CRC table (R36). -/
theorem regAt_unmapped {addr : Word}
    (h : (0x034 ≤ regOffset addr ∧ regOffset addr ≤ 0x3FC) ∨ 0x800 ≤ regOffset addr) : regAt addr = .unmapped := by
  rcases h with ⟨hlow, hhigh⟩ | hhigh
  · exact regAtOffset_unmapped_low (by omega) (by omega)
  · exact regAtOffset_unmapped_high hhigh

/-- R24 field by field, each bit cleared or kept. -/
theorem statusW1C_eq (v : Word) (st : Status) :
    statusW1C v st =
      { done := if v.getLsbD 1 then false else st.done
        err := if v.getLsbD 2 then false else st.err
        errCode := if v.getLsbD 2 then 0#4 else st.errCode
        wign := if v.getLsbD 3 then false else st.wign
        lastOp := st.lastOp } := by
  simp [statusW1C, Bool.and_comm]

/-- A write to ID, or at or above CRC_RESULT, reaches nothing that a write can change (R36). -/
theorem hostRegWrite_readOnly {addr : Word} (v : Word) (s : State)
    (h : regOffset addr = 0x000 ∨ 0x02C ≤ regOffset addr) : hostRegWrite addr v s = s := by
  unfold hostRegWrite
  rcases regAt_cases addr with ⟨-, hn⟩ | ⟨ho, -⟩ | ⟨ho, -⟩ | ⟨ho, -⟩ | ⟨hlo, hhi, -⟩ | ⟨-, hn⟩ | ⟨-, hn⟩ |
    ⟨-, -, hn⟩ | ⟨-, -, hn⟩ | ⟨-, hn⟩
  · rw [hn, regWrite]
  · omega
  · omega
  · omega
  · omega
  · rw [hn, regWrite]
  · rw [hn, regWrite]
  · rw [hn, regWrite]
  · rw [hn, regWrite]
  · rw [hn, regWrite]

/-- A read at an unmapped offset gives the host 0 (R36). -/
theorem hostRegRead_unmapped {addr : Word} (s : State) (h : regAt addr = .unmapped) :
    hostRegRead addr s = hostGets (.word 0#32) s := by
  rw [hostRegRead, h, regValue]

/-- Settles O11: offset 0x008 is STATUS, whose write is the acknowledgement of R24. -/
theorem statusWriteClearsTheBitsWrittenOne : Obligations.StatusWriteClearsTheBitsWrittenOne := by
  intro s addr v rest hin hoff
  rw [step_hostWrite hin, hostRegWrite, regAt_status hoff, regWrite, acknowledge, statusW1C_eq]
  rfl

/-- Settles O12: no writable register stands at those offsets, and an unmapped one reads 0. -/
theorem readOnlyAndUnmappedWritesAreIgnored : Obligations.ReadOnlyAndUnmappedWritesAreIgnored := by
  intro s addr v rest
  constructor
  · intro hin hoff
    rw [step_hostWrite hin, hostRegWrite_readOnly v _ hoff]
    rfl
  · intro hin hoff
    rw [step_hostRead hin, hostRegRead_unmapped _ (regAt_unmapped hoff)]
    rfl

end Sys2Proof.Machine

/-! # Proofs: the host scripts (30_encoding R82) -/

namespace Sys2Proof.Machine

/-- A pseudo-instruction that the script writer passes issues the transactions of its lines. -/
theorem expandPseudo_events {p : Pseudo} (h : pseudoWellFormed p = true) :
    (expandPseudo p).map scriptEvents = some (scriptEvents (pseudoLines p)) := by
  rw [expandPseudo, if_pos h, Option.map_some]

/-- A pseudo-instruction that the script writer refuses issues nothing. -/
theorem expandPseudo_refused {p : Pseudo} (h : pseudoWellFormed p = false) :
    (expandPseudo p).map scriptEvents = none := by
  rw [expandPseudo, h, if_neg Bool.false_ne_true, Option.map_none]

/-- Where the check of a pseudo-instruction is that its computed value `n` fits in 32 bits, it is refused exactly from
2^32 on. -/
theorem expandPseudo_computed {p : Pseudo} {n : Nat} (h : pseudoWellFormed p = decide (n < 2 ^ 32)) :
    (expandPseudo p).map scriptEvents = if 2 ^ 32 ≤ n then none else some (scriptEvents (pseudoLines p)) := by
  split
  next hbig => exact expandPseudo_refused (h.trans (decide_eq_false (Nat.not_lt.mpr hbig)))
  next hfits => exact expandPseudo_events (h.trans (decide_eq_true (Nat.lt_of_not_le hfits)))

/-- Settles O58: four pseudo-instructions compute no value and are never refused, `scanline` and `encode` compute `w*h*3`;
the transactions of the lines are found by evaluation. -/
theorem pseudoInstructionsExpand : Obligations.PseudoInstructionsExpand := by
  refine ⟨?nop, ?crc, ?chunk, ?scanline, ?encode, ?clear⟩
  case nop => exact expandPseudo_events rfl
  case crc => exact fun a n => expandPseudo_events (p := .crc a n) rfl
  case chunk => exact fun t a n => expandPseudo_events (p := .chunk t a n) rfl
  case scanline => exact fun s w h d => expandPseudo_computed (p := .scanline s w h d) rfl
  case encode => exact fun s w h => expandPseudo_computed (p := .encode s w h) rfl
  case clear => exact expandPseudo_events rfl

end Sys2Proof.Machine

/-! # Proofs: the CRC engine (40_crc R100, R101) -/

namespace Sys2Proof.Machine

/-- The iterations of R100 are the iterate of one of them. -/
theorem crcTableSteps_eq_iterate (n : Nat) (c : Word) : crcTableSteps n c = crcTableStep^[n] c := by
  induction n generalizing c with
  | zero => rfl
  | succ n ih => rw [crcTableSteps, ih, Function.iterate_succ_apply]

theorem crcTable_eq_iterate (i : Byte) : crcTable i = crcTableStep^[8] (i.setWidth 32) :=
  crcTableSteps_eq_iterate 8 _

@[simp] theorem crcFoldBytes_nil (c : Word) : crcFoldBytes c [] = c := rfl

@[simp] theorem crcFoldBytes_cons (c : Word) (b : Byte) (bs : List Byte) :
    crcFoldBytes c (b :: bs) = crcFoldBytes (crcUpdate c b) bs := rfl

/-- Feeding `s` and then `t` is feeding `s ++ t` (R101). -/
@[simp] theorem crcFoldBytes_append (c : Word) (s t : List Byte) :
    crcFoldBytes c (s ++ t) = crcFoldBytes (crcFoldBytes c s) t :=
  List.foldl_append

/-- The start value is all ones, so its complement, the CRC of no bytes, is 0 (R102). -/
@[simp] theorem crc32_nil : crc32 [] = 0#32 := by
  rw [crc32, crcFoldBytes_nil, crcStart]
  decide

/-- Settles O60: the ROM's entry is the eighth iterate of `crcTableStep`, and `crcTableStep` is the statement's `f`. -/
theorem crcTableIsEightIterations : Obligations.CrcTableIsEightIterations := by
  intro i f
  have hf : crcTableStep = f := rfl
  rw [crcTable_eq_iterate, hf]
  simp only [Function.iterate_succ_apply, Function.iterate_zero_apply]

/-- Settles O17: the byte update is `crcUpdate` written out, and the append law is that of the left fold. -/
theorem crcIsALeftFold : Obligations.CrcIsALeftFold := by
  refine ⟨crc32_nil, ?complement, crcFoldBytes_nil, ?update, crcFoldBytes_append⟩
  case complement => exact fun bs => by rw [crc32, crcStart]
  case update => exact fun c b bs => by rw [crcFoldBytes_cons, crcUpdate]

end Sys2Proof.Machine

/-! # Proofs: the frame's layout (41_chunk R110, R111) -/

namespace Sys2Proof.Machine

@[simp] theorem frame_length (tag data : List Byte) : (frame tag data).length = 8 + tag.length + data.length := by
  simp only [frame, List.length_append, be4_length]
  omega

/-- The length field is the first four bytes. -/
theorem take_frame_lengthField (tag data : List Byte) :
    (frame tag data).take 4 = be4 (BitVec.ofNat 32 data.length) := by
  simp only [frame, List.append_assoc]
  exact List.take_left' (be4_length _)

/-- What follows the length field. -/
theorem drop_frame_lengthField (tag data : List Byte) :
    (frame tag data).drop 4 = tag ++ (data ++ be4 (crc32 (tag ++ data))) := by
  simp only [frame, List.append_assoc]
  exact List.drop_left' (be4_length _)

/-- What follows the tag. -/
theorem drop_frame_tag {tag : List Byte} (data : List Byte) (htag : tag.length = 4) :
    (frame tag data).drop 8 = data ++ be4 (crc32 (tag ++ data)) := by
  rw [show 8 = 4 + 4 from rfl, ← List.drop_drop, drop_frame_lengthField, List.drop_left' htag]

/-- Settles O36: each field is read off what is left once the fields before it are dropped. The layout needs no bound on
the data; the bound is what makes the 32-bit length field the data's length itself. -/
theorem frameLayout : Obligations.FrameLayout := by
  intro tag data htag _
  refine ⟨?length, take_frame_lengthField tag data, ?tag, ?data, ?crc⟩
  case length => rw [frame_length, htag]
  case tag => rw [drop_frame_lengthField, List.take_left' htag]
  case data => rw [drop_frame_tag data htag, List.take_left]
  case crc => rw [← List.drop_drop, drop_frame_tag data htag, List.drop_left]

end Sys2Proof.Machine

/-! # Proofs: the scanline layout (42_scanline R120, R121) -/

namespace Sys2Proof.Machine

/-- The layout is `H` rows of `3W + 1` bytes. -/
theorem scan_length {p : List Byte} {w h : Nat} (hp : p.length = w * h * 3) : (scan p w h).length = h * (3 * w + 1) :=
  flatMap_range_length fun _ hr => scanRow_length hp hr

/-- Byte `c` of row `r`: the filter byte in front, then the row's pixel bytes. -/
theorem scanRow_getElem? (p : List Byte) {w c : Nat} (r : Nat) (hc : c < 3 * w + 1) :
    (scanRow p w r)[c]? = if c = 0 then some 0#8 else p[r * (3 * w) + (c - 1)]? := by
  cases c with
  | zero => rfl
  | succ c =>
    rw [scanRow, List.getElem?_cons_succ, List.getElem?_take_of_lt (by omega), List.getElem?_drop,
      if_neg (Nat.succ_ne_zero c), Nat.add_sub_cancel]

/-- Byte `k` of the layout is byte `k % (3W + 1)` of row `k / (3W + 1)`. -/
theorem scan_getElem? {p : List Byte} {w h k : Nat} (hp : p.length = w * h * 3) (hk : k < h * (3 * w + 1)) :
    (scan p w h)[k]? =
      if k % (3 * w + 1) = 0 then some 0#8 else p[k / (3 * w + 1) * (3 * w) + (k % (3 * w + 1) - 1)]? := by
  have hn : 0 < 3 * w + 1 := Nat.succ_pos _
  rw [scan, flatMap_range_get hn (fun _ hr => scanRow_length hp hr) k hk, scanRow_getElem? p _ (Nat.mod_lt k hn)]

/-- Settles O38: below the layout's length a byte is found in its row; from there on there is none. The image needs no
pixel for that: with `W = 0` every row is its filter byte. -/
theorem scanIndexForm : Obligations.ScanIndexForm := by
  intro p w h k hp _ _
  exact ⟨scan_getElem? hp, fun hk => List.getElem?_eq_none ((scan_length hp).trans_le hk)⟩

/-- Settles O39: the length counts one filter byte for each row, and the offset of row `r` is a multiple of the rows'
length. -/
theorem scanLengthAndFilterBytes : Obligations.ScanLengthAndFilterBytes := by
  intro p w h hp _ _
  constructor
  · rw [scan_length hp]
    ring
  · intro r hr
    have hlt : r * (3 * w + 1) < h * (3 * w + 1) := Nat.mul_lt_mul_of_pos_right hr (Nat.succ_pos _)
    rw [Nat.mul_comm w 3, scan_getElem? hp hlt, if_pos (Nat.mul_mod_left r _)]

end Sys2Proof.Machine

/-! # Proofs: the length of a PNG stream (43_encode R131, R132, R134) -/

namespace Sys2Proof.Machine

@[simp] theorem pngSignature_length : pngSignature.length = 8 := rfl

@[simp] theorem tagIHDR_length : tagIHDR.length = 4 := rfl

@[simp] theorem tagIDAT_length : tagIDAT.length = 4 := rfl

@[simp] theorem tagIEND_length : tagIEND.length = 4 := rfl

/-- Two `BE4` fields and five fixed bytes (R131). -/
@[simp] theorem ihdrPayload_length (w h : Word) : (ihdrPayload w h).length = 13 := rfl

/-- R134's sum `8 + 25 + (12 + N) + 12`, for whatever length `N` the layout has. -/
theorem png_length (p : List Byte) (w h : Word) :
    (png p w h).length = 57 + (scan p w.toNat h.toNat).length := by
  have hihdr : (frame tagIHDR (ihdrPayload w h)).length = 25 := by
    rw [frame_length, tagIHDR_length, ihdrPayload_length]
  have hidat : (frame tagIDAT (scan p w.toNat h.toNat)).length = 12 + (scan p w.toNat h.toNat).length := by
    rw [frame_length, tagIDAT_length]
  have hiend : (frame tagIEND []).length = 12 := by
    rw [frame_length, tagIEND_length, List.length_nil]
  simp only [png, List.length_append, pngSignature_length, hihdr, hidat, hiend]
  omega

/-- Settles O40: the fixed parts take 57 bytes, and the layout inside IDAT is `H` rows of `3W + 1` bytes. The sum needs no
pixel: it holds for an empty image too. -/
theorem pngLength : Obligations.PngLength := by
  intro p w h hp _ _
  rw [png_length, scan_length hp]
  ring

end Sys2Proof.Machine

/-! # Proofs: the host's register accesses (44_system R141, R146) -/

namespace Sys2Proof.Machine

/-- What is scheduled is not visible in a register. -/
theorem regValue_setInputs (n : RegName) (l : List Event) (s : State) : regValue n (s.setInputs l) = regValue n s := by
  cases n <;> rfl

/-- A host register read changes the host's own record only (R146), whatever register it is. -/
theorem step_hostRead_record {s : State} {addr : Word} {rest : List Event} (h : s.inputs = .hostRead addr :: rest) :
    step s = .next { s with
      inputs := rest, hostReads := s.hostReads ++ [.word (regValue (regAt addr) s)] } := by
  rw [step_hostRead h, hostRegRead, regValue_setInputs]
  rfl

/-- The value at a known offset is that of the register which the map has there (R20). -/
theorem regValue_of_offset {addr : Word} {o : Nat} (s : State) (h : regOffset addr = o) :
    regValue (regAt addr) s = regValue (regAtOffset o) s := by
  rw [regAt, h]

theorem ctrlWord_eq (ie : Bool) : ctrlWord ie = if ie then 1#32 else 0#32 := rfl

/-- Settles O13: one register for each fixed offset, and the three ranges above them by the laws of the map. -/
theorem hostReadReturnsTheRegister : Obligations.HostReadReturnsTheRegister := by
  intro s addr rest hin
  refine ⟨_, step_hostRead_record hin, ?id, ?ctrl, ?status, ?cmd, ?srcAddr, ?srcLen, ?dstAddr, ?tagAddr, ?tagLen,
    ?width, ?height, ?crcResult, ?xferCount, ?gap, ?table, ?above⟩
  case ctrl => exact fun h => (regValue_of_offset s h).trans (ctrlWord_eq s.ie)
  case id | status | cmd | srcAddr | srcLen | dstAddr | tagAddr | tagLen | width | height | crcResult | xferCount =>
    exact fun h => (regValue_of_offset s h).trans rfl
  case gap =>
    intro hlow hhigh
    rw [regAt, regAtOffset_unmapped_low (by omega) hhigh, regValue]
  case table =>
    intro hlow hhigh
    rw [regAt, regAtOffset_crcTable hlow hhigh, regValue]
  case above =>
    intro hlow
    rw [regAt, regAtOffset_unmapped_high hlow, regValue]

theorem regAt_cmd {addr : Word} (h : regOffset addr = 0x00C) : regAt addr = .cmd := by
  simp [regAt, regAtOffset, h]

theorem busy_eq_false_of_idle {s : State} (h : s.engine.phase = .idle) : s.busy = false := by
  simp [State.busy, h]

@[simp] theorem start_busy (w : Word) (s : State) : (start w s).busy = true := rfl

/-- irq falls with DONE, whatever IE is (R160). -/
@[simp] theorem start_irq (w : Word) (s : State) : (start w s).irq = false := Bool.and_false s.ie

/-- A CMD write starts the command when the block is idle (R141). -/
theorem hostRegWrite_cmd_idle {addr : Word} (w : Word) {s : State} (hoff : regOffset addr = 0x00C)
    (hidle : s.engine.phase = .idle) : hostRegWrite addr w s = start w s := by
  rw [hostRegWrite, regAt_cmd hoff, regWrite, busy_eq_false_of_idle hidle, if_neg Bool.false_ne_true]

/-- A CMD write while idle is a step to `start(w)`, the event being taken off the schedule (R141). -/
theorem step_cmdWrite_idle {s : State} {addr w : Word} {rest : List Event} (hin : s.inputs = .hostWrite addr w :: rest)
    (hoff : regOffset addr = 0x00C) (hidle : s.engine.phase = .idle) :
    step s = .next (start w (s.setInputs rest)) := by
  rw [step_hostWrite hin, hostRegWrite_cmd_idle w (s := s.setInputs rest) hoff hidle]

/-- Settles O7: the step is `start(w)`, whose record is `start_eq`. -/
theorem cmdWriteWhileIdleStarts : Obligations.CmdWriteWhileIdleStarts := by
  intro s addr w rest hin hoff hidle
  exact ⟨start w (s.setInputs rest), step_cmdWrite_idle hin hoff hidle, start_busy _ _, start_irq _ _,
    start_eq w (s.setInputs rest)⟩

end Sys2Proof.Machine

/-! # Proofs: errors (60_exceptions R150, R152, R153, R154) -/

namespace Sys2Proof.Machine

/-! ## The error a command word raises -/

/-- The command word `w` raises `e` in `s`: its decoding does (R73, R74), or the command's first failing check (R153). -/
def WordRaises (w : Word) (s : State) (e : InvalidArgument) : Prop :=
  (∃ i, decode w = .ok i ∧ raises i s = some e) ∨ (∃ r, decode w = .error r ∧ e = .illegalCmd)

/-- The checks look at MEM_SIZE and the argument registers only. -/
theorem WordRaises.congr {w : Word} {s t : State} {e : InvalidArgument} (h : WordRaises w s e)
    (top : t.memTop = s.memTop) (regs : t.regs = s.regs) : WordRaises w t e := by
  simpa only [WordRaises, raises, State.memSize, top, regs] using h

/-- The validation event of a word that raises is the error completion (R152). -/
theorem validateEvent_raises {s : State} {e : InvalidArgument} (h : WordRaises s.engine.op s e) :
    validateEvent s = errorComplete e s := by
  rw [validateEvent]
  rcases h with ⟨i, hdec, hraises⟩ | ⟨r, hdec, rfl⟩
  · rw [hdec]
    exact beginCommand_raises hraises
  · rw [hdec]

section Started

variable {s : State} {e : InvalidArgument} (hrun : s.engine.phase = .run) (hval : s.engine.validated = false)
  (h : WordRaises s.engine.op s e)

include hrun hval h

/-- The first single event of a started word that raises. -/
theorem engineEvent_raises : engineEvent s = .next (errorComplete e s) := by
  rw [engineEvent, hrun, hval]
  exact congrArg _ (validateEvent_raises h)

/-- A whole run of a started word that raises is no more than its error completion. -/
theorem engineRun_raises : engineRun s = .next (errorComplete e s) := by
  rw [engineRun, hrun, hval]
  rcases h with ⟨i, hdec, hraises⟩ | ⟨r, hdec, rfl⟩
  · rw [hdec]
    exact exec_raises hraises
  · rw [hdec]
    rfl

end Started

/-- A scheduled engine event (R149). -/
theorem step_engine {s : State} {rest : List Event} (h : s.inputs = .engine :: rest) :
    step s = engineEvent (s.setInputs rest) := by
  simp only [step, advance, h, performEvent]

/-- A scheduled run of the engine (R149, log 1). -/
theorem step_run {s : State} {rest : List Event} (h : s.inputs = .run :: rest) :
    step s = engineRun (s.setInputs rest) := by
  simp only [step, advance, h, performEvent]

/-- Two steps that go on, one after the other. -/
theorem runSteps_two {s t u : State} (hfirst : step s = .next t) (hsecond : step t = .next u) :
    runSteps 2 s = .next u := by
  simp only [runSteps, hfirst, hsecond]

/-- A CMD write whose word raises, and the engine's run after it: the error completion of the started command. -/
theorem runSteps_cmdWrite_raises {s : State} {addr w : Word} {e : InvalidArgument} {rest : List Event}
    (hin : s.inputs = .hostWrite addr w :: .run :: rest) (hoff : regOffset addr = 0x00C)
    (hidle : s.engine.phase = .idle) (h : WordRaises w s e) :
    runSteps 2 s = .next (errorComplete e (start w (s.setInputs rest))) := by
  refine runSteps_two (step_cmdWrite_idle hin hoff hidle) ?_
  rw [step_run (s := start w _) rfl]
  exact engineRun_raises (s := start w (s.setInputs rest)) rfl rfl (h.congr rfl rfl)

/-- Settles O26: the two steps lead to the error completion of the started command, and `start` and `errorComplete`
between them set nothing but STATUS, XFER_COUNT and the engine. -/
theorem errorsArePrecise : Obligations.ErrorsArePrecise := by
  intro s addr w e rest hin hoff hidle h
  exact ⟨_, runSteps_cmdWrite_raises hin hoff hidle h, rfl, rfl, rfl, rfl, rfl, rfl, rfl, rfl, rfl, rfl, rfl⟩

/-- Settles O25: by its meaning and by the engine's single event a word that raises ends in `errorComplete`, whose record
is `errorComplete_eq`. -/
theorem raisedErrorIsRecorded : Obligations.RaisedErrorIsRecorded := by
  refine ⟨rfl, rfl, rfl, rfl, rfl, rfl, rfl, fun s e => ⟨?meaning, ?event⟩⟩
  case meaning =>
    intro i hraises
    exact (exec_raises hraises).trans (congrArg _ (errorComplete_eq e s))
  case event =>
    intro rest hin hrun hval h
    rw [step_engine hin]
    exact (engineEvent_raises (s := s.setInputs rest) hrun hval h).trans (congrArg _ (errorComplete_eq e _))

/-! ## Which check fails first -/

/-- A cause is raised by the first check, or by a later one once the first has passed (R14). -/
theorem firstFailure_cons_eq_some_iff {fails : Bool} {c e : InvalidArgument} {rest : List (Bool × InvalidArgument)} :
    firstFailure ((fails, c) :: rest) = some e ↔
      (fails = true ∧ c = e) ∨ (¬ fails = true ∧ firstFailure rest = some e) := by
  cases fails <;> simp [firstFailure]

/-- Nothing is raised exactly when every check passes. -/
theorem firstFailure_cons_eq_none_iff {fails : Bool} {c : InvalidArgument} {rest : List (Bool × InvalidArgument)} :
    firstFailure ((fails, c) :: rest) = none ↔ ¬ fails = true ∧ firstFailure rest = none := by
  cases fails <;> simp [firstFailure]

theorem firstFailure_nil_eq_some_iff {e : InvalidArgument} : firstFailure [] = some e ↔ False := by
  simp [firstFailure]

theorem firstFailure_nil_eq_none_iff : firstFailure [] = none ↔ True := by
  simp [firstFailure]

/-! ### What each check tests, exactly (R53, R54, R122) -/

/-- `n` cells from `a` on do not lie in MEM (R53): an empty range always does. -/
def OutsideMem (s : State) (a : Word) (n : Nat) : Prop := n ≠ 0 ∧ s.memSize < a.toNat + n

/-- The image has no pixel (R122). -/
def ImageEmpty (r : Regs) : Prop := r.width = 0#32 ∨ r.height = 0#32

/-- SRC_LEN is the number of the image's pixel bytes (R122, R124). -/
def PixelLenExact (r : Regs) : Prop := r.srcLen.toNat = r.width.toNat * r.height.toNat * 3

/-- The source and the destination of SCANLINE share a cell (R54, R123). -/
def ScanlineOverlaps (s : State) : Prop :=
  0 < s.regs.srcLen.toNat ∧ 0 < scanLen s.regs ∧
    s.regs.srcAddr.toNat < s.regs.dstAddr.toNat + scanLen s.regs ∧
    s.regs.dstAddr.toNat < s.regs.srcAddr.toNat + s.regs.srcLen.toNat

theorem rangeCheck_iff {s : State} {a : Word} {n : Nat} :
    (!rangeValid s.memSize a.toNat n) = true ↔ OutsideMem s a n := by
  simp [rangeValid, OutsideMem]

theorem tagLenCheck_iff {r : Regs} : (r.tagLen != 4#32) = true ↔ r.tagLen ≠ 4#32 :=
  bne_iff_ne

theorem zeroDimCheck_iff {r : Regs} : (r.width == 0#32 || r.height == 0#32) = true ↔ ImageEmpty r := by
  simp [ImageEmpty]

theorem pixelLenCheck_iff {r : Regs} :
    (r.srcLen.toNat != r.width.toNat * r.height.toNat * 3) = true ↔ ¬ PixelLenExact r :=
  bne_iff_ne

theorem lenOverflowCheck_iff {r : Regs} : decide (0xFFFFFFFF < scanLen r) = true ↔ ¬ scanLen r ≤ 0xFFFFFFFF := by
  simp

theorem overlapCheck_iff {s : State} :
    rangesOverlap s.regs.srcAddr.toNat s.regs.srcLen.toNat s.regs.dstAddr.toNat (scanLen s.regs) = true ↔
      ScanlineOverlaps s := by
  simp [rangesOverlap, ScanlineOverlaps, and_assoc]

/-! ### CRC and CHUNK (R103, R112) -/

theorem raises_crc_eq_some_iff {s : State} {e : InvalidArgument} :
    raises .crc s = some e ↔ OutsideMem s s.regs.srcAddr s.regs.srcLen.toNat ∧ .range = e := by
  simp only [raises, checksOf, crcChecks, firstFailure_cons_eq_some_iff, firstFailure_nil_eq_some_iff, rangeCheck_iff,
    and_false, or_false]

theorem raises_crc_eq_none_iff {s : State} :
    raises .crc s = none ↔ ¬ OutsideMem s s.regs.srcAddr s.regs.srcLen.toNat := by
  simp only [raises, checksOf, crcChecks, firstFailure_cons_eq_none_iff, firstFailure_nil_eq_none_iff, rangeCheck_iff,
    and_true]

theorem raises_chunk_eq_some_iff {s : State} {e : InvalidArgument} :
    raises .chunk s = some e ↔
      (s.regs.tagLen ≠ 4#32 ∧ .badTagLen = e) ∨
      (s.regs.tagLen = 4#32 ∧
        (OutsideMem s s.regs.tagAddr 4 ∨ OutsideMem s s.regs.srcAddr s.regs.srcLen.toNat) ∧ .range = e) := by
  simp only [raises, checksOf, chunkChecks, firstFailure_cons_eq_some_iff, firstFailure_nil_eq_some_iff,
    tagLenCheck_iff, rangeCheck_iff]
  tauto

theorem raises_chunk_eq_none_iff {s : State} :
    raises .chunk s = none ↔
      s.regs.tagLen = 4#32 ∧ ¬ OutsideMem s s.regs.tagAddr 4 ∧
        ¬ OutsideMem s s.regs.srcAddr s.regs.srcLen.toNat := by
  simp only [raises, checksOf, chunkChecks, firstFailure_cons_eq_none_iff, firstFailure_nil_eq_none_iff,
    tagLenCheck_iff, rangeCheck_iff, not_not, and_true]

/-! ### SCANLINE and ENCODE (R122, R123, R133) -/

/-- `ValidateImage` passes (R122). -/
def ImageValid (r : Regs) : Prop := ¬ ImageEmpty r ∧ PixelLenExact r ∧ scanLen r ≤ 0xFFFFFFFF

/-- `ValidateImage`'s own causes, in its order (R122). -/
def ImageRaises (r : Regs) (e : InvalidArgument) : Prop :=
  (ImageEmpty r ∧ .zeroDim = e) ∨ (¬ ImageEmpty r ∧ ¬ PixelLenExact r ∧ .pixelLen = e) ∨
    (¬ ImageEmpty r ∧ PixelLenExact r ∧ ¬ scanLen r ≤ 0xFFFFFFFF ∧ .lenOverflow = e)

/-- A range that `i`, SCANLINE or ENCODE, touches is not in MEM (R123, R133); only SCANLINE has a destination. -/
def ImageOutsideMem (i : Instr) (s : State) : Prop :=
  OutsideMem s s.regs.srcAddr s.regs.srcLen.toNat ∨ (i = .scanline ∧ OutsideMem s s.regs.dstAddr (scanLen s.regs))

/-- `ValidateImage` in front of further checks. -/
theorem firstFailure_imageChecks_append_eq_some_iff {r : Regs} {rest : List (Bool × InvalidArgument)}
    {e : InvalidArgument} :
    firstFailure (imageChecks r ++ rest) = some e ↔ ImageRaises r e ∨ (ImageValid r ∧ firstFailure rest = some e) := by
  simp only [imageChecks, List.cons_append, List.nil_append, firstFailure_cons_eq_some_iff, zeroDimCheck_iff,
    pixelLenCheck_iff, lenOverflowCheck_iff, ImageRaises, ImageValid]
  tauto

theorem firstFailure_imageChecks_append_eq_none_iff {r : Regs} {rest : List (Bool × InvalidArgument)} :
    firstFailure (imageChecks r ++ rest) = none ↔ ImageValid r ∧ firstFailure rest = none := by
  simp only [imageChecks, List.cons_append, List.nil_append, firstFailure_cons_eq_none_iff, zeroDimCheck_iff,
    pixelLenCheck_iff, lenOverflowCheck_iff, not_not, ImageValid, and_assoc]

section ImageCommand

variable {i : Instr} {s : State} (hi : i = .scanline ∨ i = .encode)

include hi

/-- The causes of SCANLINE and ENCODE: those of the image, then those of the ranges. -/
theorem raises_image_eq_some_iff {e : InvalidArgument} :
    raises i s = some e ↔
      ImageRaises s.regs e ∨
      (ImageValid s.regs ∧
        ((ImageOutsideMem i s ∧ .range = e) ∨
          (¬ ImageOutsideMem i s ∧ (i = .scanline ∧ ScanlineOverlaps s) ∧ .overlap = e))) := by
  rcases hi with rfl | rfl
  · simp only [raises, checksOf, scanlineChecks, firstFailure_imageChecks_append_eq_some_iff,
      firstFailure_cons_eq_some_iff, firstFailure_nil_eq_some_iff, rangeCheck_iff, overlapCheck_iff, ImageOutsideMem]
    tauto
  · simp only [raises, checksOf, encodeChecks, firstFailure_imageChecks_append_eq_some_iff,
      firstFailure_cons_eq_some_iff, firstFailure_nil_eq_some_iff, rangeCheck_iff, ImageOutsideMem, reduceCtorEq,
      false_and, and_false, or_false]

theorem raises_image_eq_none_iff :
    raises i s = none ↔ ImageValid s.regs ∧ ¬ ImageOutsideMem i s ∧ ¬ (i = .scanline ∧ ScanlineOverlaps s) := by
  rcases hi with rfl | rfl
  · simp only [raises, checksOf, scanlineChecks, firstFailure_imageChecks_append_eq_none_iff,
      firstFailure_cons_eq_none_iff, firstFailure_nil_eq_none_iff, rangeCheck_iff, overlapCheck_iff, ImageOutsideMem,
      true_and, not_or, and_true, and_assoc]
  · simp only [raises, checksOf, encodeChecks, firstFailure_imageChecks_append_eq_none_iff,
      firstFailure_cons_eq_none_iff, firstFailure_nil_eq_none_iff, rangeCheck_iff, ImageOutsideMem, reduceCtorEq,
      false_and, or_false, not_false_eq_true, and_true]

/-- The table read at each cause: a cause names its check, and the checks before it have passed (R153). -/
theorem raises_image_causes :
    (raises i s = some .zeroDim ↔ ImageEmpty s.regs) ∧
    (raises i s = some .pixelLen ↔ ¬ ImageEmpty s.regs ∧ ¬ PixelLenExact s.regs) ∧
    (raises i s = some .lenOverflow ↔ ¬ ImageEmpty s.regs ∧ PixelLenExact s.regs ∧ 0xFFFFFFFF < scanLen s.regs) ∧
    (raises i s = some .range ↔ ImageValid s.regs ∧ ImageOutsideMem i s) ∧
    (raises i s = some .overlap ↔ ImageValid s.regs ∧ ¬ ImageOutsideMem i s ∧ i = .scanline ∧ ScanlineOverlaps s) := by
  refine ⟨?zeroDim, ?pixelLen, ?lenOverflow, ?range, ?overlap⟩
  case zeroDim | pixelLen | lenOverflow | range | overlap =>
    simp [raises_image_eq_some_iff hi, ImageRaises]

end ImageCommand

/-- Settles O24: CRC and CHUNK by their tables of causes; for SCANLINE and ENCODE `ValidateImage` comes first, and its
three conditions are those of the statement. -/
theorem firstFailingCheckIsRaised : Obligations.FirstFailingCheckIsRaised := by
  intro s bad n
  refine ⟨rfl, ?crcRange, raises_crc_eq_none_iff, ?chunkTagLen, ?chunkRange, raises_chunk_eq_none_iff, fun i hi => ?image⟩
  case crcRange => exact raises_crc_eq_some_iff.trans (and_iff_left rfl)
  case chunkTagLen => simp [raises_chunk_eq_some_iff]
  case chunkRange => simp [raises_chunk_eq_some_iff, bad, OutsideMem]
  case image =>
    obtain ⟨hzeroDim, hpixelLen, hlenOverflow, hrange, hoverlap⟩ := raises_image_causes (s := s) hi
    have hnone := raises_image_eq_none_iff (s := s) hi
    simp only [ImageValid, and_assoc] at hrange hoverlap hnone
    exact ⟨hzeroDim, hpixelLen, hlenOverflow, hrange, hoverlap, hnone⟩

end Sys2Proof.Machine

/-! # Proofs: reset, power-on and writes while busy (70_reset R170, R172, R176) -/

namespace Sys2Proof.Machine

/-! ## Writes while busy -/

theorem busy_eq_true_of_run {s : State} (h : s.engine.phase = .run) : s.busy = true := by
  simp [State.busy, h]

/-- CMD and the argument registers, and nothing else, stand from offset 0x00C to 0x028 (R20). -/
theorem regAt_cmd_or_arg {addr : Word} (hlow : 0x00C ≤ regOffset addr) (hhigh : regOffset addr ≤ 0x028) :
    regAt addr = .cmd ∨ ∃ a, regAt addr = .arg a := by
  rcases regAt_cases addr with ⟨ho, -⟩ | ⟨ho, -⟩ | ⟨ho, -⟩ | ⟨-, hcmd⟩ | ⟨-, -, harg⟩ | ⟨ho, -⟩ | ⟨ho, -⟩ | ⟨ho, -⟩ |
    ⟨ho, -⟩ | ⟨ho, -⟩
  any_goals omega
  · exact .inl hcmd
  · exact .inr harg

/-- A busy block loses a write to CMD or to an argument register (R176). -/
theorem hostRegWrite_busy {addr : Word} (v : Word) {s : State} (hlow : 0x00C ≤ regOffset addr)
    (hhigh : regOffset addr ≤ 0x028) (hbusy : s.busy = true) : hostRegWrite addr v s = ignoredWrite s := by
  rw [hostRegWrite]
  rcases regAt_cmd_or_arg hlow hhigh with hn | ⟨a, hn⟩
  · rw [hn, regWrite, if_pos hbusy]
  · rw [hn, regWrite, if_pos hbusy]

/-- Settles O8: the write goes to CMD or to an argument register, and a running engine is busy. -/
theorem writeWhileBusyIsIgnored : Obligations.WriteWhileBusyIsIgnored := by
  intro s addr v rest hin hrun hlow hhigh
  have hbusy : (s.setInputs rest).busy = true := busy_eq_true_of_run (s := s.setInputs rest) hrun
  rw [step_hostWrite hin, hostRegWrite_busy v hlow hhigh hbusy]
  rfl

/-! ## What a reset and a power-on share -/

/-- Every register and the engine have their values of R170. -/
structure RegistersReset (t : State) : Prop where
  ie : t.ie = false
  status : t.status = Status.reset
  regs : t.regs = Regs.reset
  crcResult : t.crcResult = 0#32
  xferCount : t.xferCount = 0#32
  engine : t.engine = Engine.reset

theorem warmReset_registersReset (s : State) : RegistersReset (warmReset s) := ⟨rfl, rfl, rfl, rfl, rfl, rfl⟩

theorem powerOn_registersReset (s : State) : RegistersReset (powerOn s) := ⟨rfl, rfl, rfl, rfl, rfl, rfl⟩

/-- An idle engine offers nothing (R149). -/
theorem offers_eq_false_of_idle {s : State} (h : s.engine.phase = .idle) : offers s = false := by
  rw [offers, busy_eq_false_of_idle h, Bool.false_and, Bool.false_and]

section RegistersReset

variable {t : State} (h : RegistersReset t)

include h

theorem RegistersReset.idle : t.engine.phase = .idle := congrArg Engine.phase h.engine

theorem RegistersReset.pending : t.engine.pending = [] := congrArg Engine.pending h.engine

theorem RegistersReset.offers : offers t = false := offers_eq_false_of_idle h.idle

/-- irq is low, since IE is 0 (R160). -/
theorem RegistersReset.irq : t.irq = false := by
  rw [State.irq, h.ie, Bool.false_and]

end RegistersReset

/-! ## Reset -/

/-- A reset step (R170). -/
theorem step_reset {s : State} {rest : List Event} (h : s.inputs = .reset :: rest) :
    step s = .next (warmReset (s.setInputs rest)) := by
  simp only [step, advance, h, performEvent]

/-- An idle block runs no command, so none names a destination (R171). -/
theorem runningDestination_of_idle {s : State} (h : s.engine.phase = .idle) : runningDestination s = [] := by
  rw [runningDestination, runningCommand, busy_eq_false_of_idle h, if_neg Bool.false_ne_true]

theorem warmReset_mem_of_idle {s : State} (h : s.engine.phase = .idle) : (warmReset s).mem = s.mem :=
  congrArg (eraseRanges s.mem) (runningDestination_of_idle h)

/-- Settles O51: the registers by `warmReset_registersReset`; an idle block has no destination to erase. -/
theorem resetSetsEveryRegister : Obligations.ResetSetsEveryRegister := by
  intro s rest hin
  have h := warmReset_registersReset (s.setInputs rest)
  exact ⟨warmReset (s.setInputs rest), step_reset hin, rfl, h.ie, h.status, h.regs, h.crcResult, h.xferCount, rfl,
    h.idle, h.pending, h.offers, h.irq, rfl, warmReset_mem_of_idle (s := s.setInputs rest)⟩

/-! ## Power-on -/

/-- Settles O53: the registers by `powerOn_registersReset`; the memory of no cells has every cell unwritten. -/
theorem powerOnErasesMemAndOut : Obligations.PowerOnErasesMemAndOut := by
  intro s rest hin
  have h := powerOn_registersReset (s.setInputs rest)
  exact ⟨powerOn (s.setInputs rest), step_powerOn hin, fun _ => rfl, rfl, h.ie, h.status, h.regs, h.crcResult,
    h.xferCount, rfl, h.idle, h.pending, h.offers, h.irq⟩

end Sys2Proof.Machine

/-! # Proofs: the cells a command reads and writes (20_memory R53, R55, R56) -/

namespace Sys2Proof.Machine

/-! ## The bytes that a list of events uses, and the cells it writes -/

/-- Where an engine event takes its byte from, when it uses one. -/
def eventSource : EngineEvent → Option ByteSource
  | .crcInit => none
  | .crcFold src => some src
  | .emit src _ => some src
  | .emitCrc _ _ => none
  | .store _ src => some src
  | .complete _ _ => none

/-- The cell that an engine event writes, when it writes one. -/
def eventTarget : EngineEvent → Option Nat
  | .crcInit => none
  | .crcFold _ => none
  | .emit _ _ => none
  | .emitCrc _ _ => none
  | .store dst _ => some dst
  | .complete _ _ => none

/-- The sources of a list of events, in order. -/
def sourcesOf (evs : List EngineEvent) : List ByteSource := evs.filterMap eventSource

/-- The cells that a list of events writes, in order. -/
def targetsOf (evs : List EngineEvent) : List Nat := evs.filterMap eventTarget

@[simp] theorem sourcesOf_append (xs ys : List EngineEvent) : sourcesOf (xs ++ ys) = sourcesOf xs ++ sourcesOf ys :=
  List.filterMap_append

@[simp] theorem targetsOf_append (xs ys : List EngineEvent) : targetsOf (xs ++ ys) = targetsOf xs ++ targetsOf ys :=
  List.filterMap_append

@[simp] theorem sourcesOf_map_crcFold (srcs : List ByteSource) : sourcesOf (srcs.map .crcFold) = srcs := by
  simp [sourcesOf, List.filterMap_map, Function.comp_def, eventSource]

@[simp] theorem sourcesOf_map_emit (srcs : List ByteSource) (fold : Bool) :
    sourcesOf (srcs.map (.emit · fold)) = srcs := by
  simp [sourcesOf, List.filterMap_map, Function.comp_def, eventSource]

@[simp] theorem targetsOf_map_crcFold (srcs : List ByteSource) : targetsOf (srcs.map .crcFold) = [] := by
  simp [targetsOf, eventTarget]

@[simp] theorem targetsOf_map_emit (srcs : List ByteSource) (fold : Bool) :
    targetsOf (srcs.map (.emit · fold)) = [] := by
  simp [targetsOf, eventTarget]

@[simp] theorem sourcesOf_frameEvents (tag data : List ByteSource) (last : Bool) :
    sourcesOf (frameEvents tag data last) = consts (be4 (BitVec.ofNat 32 data.length)) ++ tag ++ data := by
  simp only [frameEvents, sourcesOf_append, sourcesOf_map_emit]
  simp [sourcesOf, List.filterMap_cons, eventSource]

@[simp] theorem targetsOf_frameEvents (tag data : List ByteSource) (last : Bool) :
    targetsOf (frameEvents tag data last) = [] := by
  simp only [frameEvents, targetsOf_append, targetsOf_map_emit]
  simp [targetsOf, eventTarget]

theorem sourcesOf_crcEvents (r : Regs) : sourcesOf (crcEvents r) = cells r.srcAddr.toNat r.srcLen.toNat := by
  simp only [crcEvents, sourcesOf_append, sourcesOf_map_crcFold]
  simp [sourcesOf, List.filterMap_cons, eventSource]

theorem sourcesOf_chunkEvents (r : Regs) :
    sourcesOf (chunkEvents r) =
      consts (be4 (BitVec.ofNat 32 (cells r.srcAddr.toNat r.srcLen.toNat).length)) ++ cells r.tagAddr.toNat 4 ++
        cells r.srcAddr.toNat r.srcLen.toNat := by
  simp only [chunkEvents, sourcesOf_append, sourcesOf_frameEvents]
  simp [sourcesOf, eventSource]

theorem sourcesOf_scanlineEvents (r : Regs) : sourcesOf (scanlineEvents r) = scanSources r := by
  simp [scanlineEvents, sourcesOf, List.filterMap_map, Function.comp_def, eventSource, scanSources]

theorem targetsOf_scanlineEvents (r : Regs) :
    targetsOf (scanlineEvents r) = (List.range (scanLen r)).map (r.dstAddr.toNat + ·) := by
  simp [scanlineEvents, targetsOf, List.filterMap_map, Function.comp_def, eventTarget]

/-- Only SCANLINE writes MEM. -/
theorem targetsOf_eventsOf {i : Instr} (r : Regs) (hi : i ≠ .scanline) : targetsOf (eventsOf i r) = [] := by
  cases i with
  | nop => rfl
  | crc => simp only [eventsOf, crcEvents, targetsOf_append, targetsOf_map_crcFold]; rfl
  | chunk => simp only [eventsOf, chunkEvents, targetsOf_append, targetsOf_frameEvents]; rfl
  | scanline => exact absurd rfl hi
  | encode => simp only [eventsOf, encodeEvents, targetsOf_append, targetsOf_map_emit, targetsOf_frameEvents]; rfl

/-! ## Membership -/

@[simp] theorem cell_mem_cells {x a n : Nat} : .cell x ∈ cells a n ↔ inRange (a, n) x = true := by
  simp only [cells, List.mem_map, List.mem_range, ByteSource.cell.injEq, inRange, Bool.and_eq_true, decide_eq_true_eq]
  constructor
  · rintro ⟨k, hk, rfl⟩
    omega
  · rintro ⟨hlow, hhigh⟩
    exact ⟨x - a, by omega, by omega⟩

@[simp] theorem cell_not_mem_consts {x : Nat} {bs : List Byte} : .cell x ∉ consts bs := by
  simp [consts]

/-- `N` counts `H` rows of `3W + 1` bytes (R121, R122). -/
theorem scanLen_eq {r : Regs} (h : PixelLenExact r) : scanLen r = r.height.toNat * (3 * r.width.toNat + 1) := by
  rw [scanLen, h]
  ring

/-- The offset of a pixel byte of the layout (R120) is one of the image's. -/
theorem pixelOffset_lt {w h k : Nat} (hk : k < h * (3 * w + 1)) (hpix : k % (3 * w + 1) ≠ 0) :
    k / (3 * w + 1) * (3 * w) + (k % (3 * w + 1) - 1) < w * h * 3 := by
  have hrow : k / (3 * w + 1) + 1 ≤ h := (Nat.div_lt_iff_lt_mul (Nat.succ_pos _)).2 hk
  have hcol : k % (3 * w + 1) < 3 * w + 1 := Nat.mod_lt _ (Nat.succ_pos _)
  calc k / (3 * w + 1) * (3 * w) + (k % (3 * w + 1) - 1)
      < k / (3 * w + 1) * (3 * w) + 3 * w := by omega
    _ = (k / (3 * w + 1) + 1) * (3 * w) := (Nat.succ_mul ..).symm
    _ ≤ h * (3 * w) := Nat.mul_le_mul_right _ hrow
    _ = w * h * 3 := by ring

/-- Every byte of the image has its place in the layout (R120). -/
theorem exists_pixelOffset {w h j : Nat} (hj : j < w * h * 3) :
    ∃ k < h * (3 * w + 1), k % (3 * w + 1) ≠ 0 ∧ k / (3 * w + 1) * (3 * w) + (k % (3 * w + 1) - 1) = j := by
  have hw : 0 < 3 * w := by
    rcases Nat.eq_zero_or_pos w with rfl | hw
    · simp at hj
    · omega
  have hrow : j / (3 * w) + 1 ≤ h := (Nat.div_lt_iff_lt_mul hw).2 (hj.trans_eq (by ring))
  have hcol : j % (3 * w) + 1 < 3 * w + 1 := Nat.succ_lt_succ (Nat.mod_lt _ hw)
  have hmod : (j % (3 * w) + 1 + (3 * w + 1) * (j / (3 * w))) % (3 * w + 1) = j % (3 * w) + 1 := by
    rw [Nat.add_mul_mod_self_left, Nat.mod_eq_of_lt hcol]
  have hdiv : (j % (3 * w) + 1 + (3 * w + 1) * (j / (3 * w))) / (3 * w + 1) = j / (3 * w) := by
    rw [Nat.add_mul_div_left _ _ (Nat.succ_pos _), Nat.div_eq_of_lt hcol, Nat.zero_add]
  refine ⟨j % (3 * w) + 1 + (3 * w + 1) * (j / (3 * w)), ?_, by omega, ?_⟩
  · calc j % (3 * w) + 1 + (3 * w + 1) * (j / (3 * w))
        < (3 * w + 1) + (3 * w + 1) * (j / (3 * w)) := by omega
      _ = (j / (3 * w) + 1) * (3 * w + 1) := by ring
      _ ≤ h * (3 * w + 1) := Nat.mul_le_mul_right _ hrow
  · rw [hdiv, hmod, Nat.add_sub_cancel, Nat.mul_comm]
    exact Nat.div_add_mod j _

/-- The layout takes its pixel bytes from the whole of the source range and from nowhere else (R120). -/
theorem cell_mem_scanSources {r : Regs} {x : Nat} (h : PixelLenExact r) :
    .cell x ∈ scanSources r ↔ inRange (r.srcAddr.toNat, r.srcLen.toNat) x = true := by
  have hlen : r.srcLen.toNat = r.width.toNat * r.height.toNat * 3 := h
  simp only [scanSources, List.mem_map, List.mem_range, scanLen_eq h, scanSource, inRange, Bool.and_eq_true,
    decide_eq_true_eq, hlen]
  constructor
  · rintro ⟨k, hk, hsrc⟩
    split at hsrc
    · cases hsrc
    · rename_i hpix
      have := pixelOffset_lt hk hpix
      cases hsrc
      omega
  · rintro ⟨hlow, hhigh⟩
    obtain ⟨k, hk, hpix, hoff⟩ := exists_pixelOffset (w := r.width.toNat) (h := r.height.toNat)
      (j := x - r.srcAddr.toNat) (by omega)
    refine ⟨k, hk, ?_⟩
    rw [if_neg hpix, Nat.add_assoc, hoff, Nat.add_sub_cancel' hlow]

/-- ENCODE's sources: the layout's, among fixed bytes (R133). -/
theorem cell_mem_sourcesOf_encodeEvents {r : Regs} {x : Nat} :
    .cell x ∈ sourcesOf (encodeEvents r) ↔ .cell x ∈ scanSources r := by
  simp only [encodeEvents, sourcesOf_append, sourcesOf_map_emit, sourcesOf_frameEvents, List.mem_append,
    cell_not_mem_consts, false_or, or_false]
  simp [sourcesOf, eventSource]

/-- A command that passes its checks reads the cells of the ranges it names, each of them and no other (R55). -/
theorem cell_mem_sourcesOf_eventsOf {i : Instr} {s : State} {a : Nat} (h : raises i s = none) :
    .cell a ∈ sourcesOf (eventsOf i s.regs) ↔ ((readRanges i s.regs).any fun q => inRange q a) = true := by
  cases i with
  | nop => simp [eventsOf, nopEvents, sourcesOf, eventSource, readRanges]
  | crc => simp [eventsOf, sourcesOf_crcEvents, readRanges]
  | chunk => simp [eventsOf, sourcesOf_chunkEvents, readRanges]
  | scanline =>
    obtain ⟨⟨-, hlen, -⟩, -⟩ := (raises_image_eq_none_iff (.inl rfl)).1 h
    simp [eventsOf, sourcesOf_scanlineEvents, readRanges, cell_mem_scanSources hlen]
  | encode =>
    obtain ⟨⟨-, hlen, -⟩, -⟩ := (raises_image_eq_none_iff (.inr rfl)).1 h
    simp [eventsOf, cell_mem_sourcesOf_encodeEvents, readRanges, cell_mem_scanSources hlen]

/-- The cells that a command writes are those of its destination (R56). -/
theorem mem_targetsOf_eventsOf {i : Instr} {r : Regs} {d : Nat} :
    d ∈ targetsOf (eventsOf i r) ↔ ((writeRanges i r).any fun q => inRange q d) = true := by
  by_cases hi : i = .scanline
  · subst hi
    simp only [eventsOf, targetsOf_scanlineEvents, writeRanges, List.mem_map, List.mem_range, List.any_cons,
      List.any_nil, Bool.or_false, inRange, Bool.and_eq_true, decide_eq_true_eq]
    constructor
    · rintro ⟨k, hk, rfl⟩
      omega
    · rintro ⟨hlow, hhigh⟩
      exact ⟨d - r.dstAddr.toNat, by omega, by omega⟩
  · rw [targetsOf_eventsOf r hi]
    cases i with
    | scanline => exact absurd rfl hi
    | nop | crc | chunk | encode => simp [writeRanges]

/-- A cell of a range that a passing command names is inside MEM (R53). -/
theorem any_inRange_inside {i : Instr} {s : State} {rs : List (Nat × Nat)} {a : Nat} (h : raises i s = none)
    (hsub : rs ⊆ readRanges i s.regs ++ writeRanges i s.regs) (ha : (rs.any fun q => inRange q a) = true) :
    a < s.memSize := by
  obtain ⟨q, hq, hin⟩ := List.any_eq_true.1 ha
  exact passing_range_inside h (hsub hq) hin

theorem source_inside {i : Instr} {s : State} {a : Nat} (h : raises i s = none)
    (ha : .cell a ∈ sourcesOf (eventsOf i s.regs)) : a < s.memSize :=
  any_inRange_inside h (List.subset_append_left ..) ((cell_mem_sourcesOf_eventsOf h).1 ha)

theorem target_inside {i : Instr} {s : State} {d : Nat} (h : raises i s = none)
    (hd : d ∈ targetsOf (eventsOf i s.regs)) : d < s.memSize :=
  any_inRange_inside h (List.subset_append_right ..) (mem_targetsOf_eventsOf.1 hd)

theorem mem_sourcesOf {evs : List EngineEvent} {ev : EngineEvent} {src : ByteSource} (hev : ev ∈ evs)
    (hsrc : eventSource ev = some src) : src ∈ sourcesOf evs :=
  List.mem_filterMap.2 ⟨ev, hev, hsrc⟩

theorem mem_targetsOf {evs : List EngineEvent} {dst : Nat} {src : ByteSource} (hev : .store dst src ∈ evs) :
    dst ∈ targetsOf evs :=
  List.mem_filterMap.2 ⟨_, hev, rfl⟩

/-- Settles O33: an event's cell is one of the command's sources or targets, which are the cells of its ranges, and
those are inside MEM. -/
theorem engineStaysInsideItsRanges : Obligations.EngineStaysInsideItsRanges := by
  intro s i ev h hev
  constructor
  · intro a hreads
    have hsrc : eventSource ev = some (.cell a) := by
      rcases hreads with rfl | ⟨f, rfl⟩ | ⟨d, rfl⟩ <;> rfl
    have ha := mem_sourcesOf hev hsrc
    exact ⟨source_inside h ha, (cell_mem_sourcesOf_eventsOf h).1 ha⟩
  · rintro d src rfl
    have hd := mem_targetsOf hev
    exact ⟨target_inside h hd, mem_targetsOf_eventsOf.1 hd⟩

end Sys2Proof.Machine

/-! # Proofs: what one engine event keeps (44_system R142, R143) -/

namespace Sys2Proof.Machine

/-- What an event that does not end the command leaves of the block's progress: `rest` is what is still to be done, and
neither STATUS nor the results have changed. -/
structure StillRunning (rest : List EngineEvent) (s t : State) : Prop where
  status : t.status = s.status
  phase : t.engine.phase = s.engine.phase
  validated : t.engine.validated = s.engine.validated
  pending : t.engine.pending = rest
  crcResult : t.crcResult = s.crcResult
  xferCount : t.xferCount = s.xferCount

theorem perform_stillRunning {ev : EngineEvent} {rest : List EngineEvent} {s t : State}
    (hev : isCompletion ev = false) (h : perform ev rest s = .next t) : StillRunning rest s t := by
  rcases perform_cases h with ⟨-, rfl⟩ | ⟨src, b, -, -, rfl⟩ | ⟨src, b, fold, -, -, rfl⟩ | ⟨k, last, -, rfl⟩ |
    ⟨dst, src, b, -, -, rfl⟩ | ⟨crc, x, rfl, -⟩
  · exact ⟨rfl, rfl, rfl, rfl, rfl, rfl⟩
  · exact ⟨rfl, rfl, rfl, rfl, rfl, rfl⟩
  · cases fold <;> exact ⟨rfl, rfl, rfl, rfl, rfl, rfl⟩
  · exact ⟨rfl, rfl, rfl, rfl, rfl, rfl⟩
  · exact ⟨rfl, rfl, rfl, rfl, rfl, rfl⟩
  · cases hev

theorem perform_completion {ev : EngineEvent} {rest : List EngineEvent} {s t : State}
    (hev : isCompletion ev = true) (h : perform ev rest s = .next t) : ∃ c x, t = complete c x s := by
  cases ev with
  | complete crc x => exact ⟨_, x, (Host.Outcome.next.inj h).symm⟩
  | crcInit | crcFold src | emit src fold | emitCrc k last | store dst src => cases hev

/-- An event writes the cell that it names, and no other (R56). -/
theorem perform_mem {ev : EngineEvent} {rest : List EngineEvent} {s t : State} (h : perform ev rest s = .next t) :
    (eventTarget ev = none ∧ t.mem = s.mem) ∨ ∃ dst b, eventTarget ev = some dst ∧ t.mem = memPut s.mem dst b := by
  rcases perform_cases h with ⟨rfl, rfl⟩ | ⟨src, b, rfl, -, rfl⟩ | ⟨src, b, fold, rfl, -, rfl⟩ | ⟨k, last, rfl, rfl⟩ |
    ⟨dst, src, b, rfl, -, rfl⟩ | ⟨crc, x, rfl, rfl⟩
  · exact .inl ⟨rfl, rfl⟩
  · exact .inl ⟨rfl, rfl⟩
  · cases fold <;> exact .inl ⟨rfl, rfl⟩
  · exact .inl ⟨rfl, rfl⟩
  · exact .inr ⟨dst, b, rfl, rfl⟩
  · exact .inl ⟨rfl, rfl⟩

theorem eventsOf_ne_nil (i : Instr) (r : Regs) : eventsOf i r ≠ [] := by
  obtain ⟨evs, crc, x, heq, -⟩ := eventsOf_shape i r
  simp [heq]

/-- Among the last events of a command, the first is its completion exactly when nothing follows it (R143). -/
theorem isCompletion_iff_last {i : Instr} {r : Regs} {ev : EngineEvent} {rest : List EngineEvent}
    (h : ev :: rest <:+ eventsOf i r) : isCompletion ev = true ↔ rest = [] := by
  obtain ⟨evs, crc, x, heq, hevs, -⟩ := eventsOf_shape i r
  obtain ⟨done, hdone⟩ := h
  rw [heq] at hdone
  rcases List.eq_nil_or_concat' rest with rfl | ⟨more, last, rfl⟩
  · obtain ⟨-, hlast⟩ := List.append_inj' hdone rfl
    cases hlast
    simp [isCompletion]
  · rw [← List.cons_append, ← List.append_assoc] at hdone
    obtain ⟨rfl, -⟩ := List.append_inj' hdone rfl
    simp [hevs ev (by simp)]

end Sys2Proof.Machine

/-! # Proofs: what a step can do (44_system R149) -/

namespace Sys2Proof.Machine

/-- `t` is `s` but for what is not the block's own: the schedule, the consumer and the host's record. -/
structure SameBlock (s t : State) : Prop where
  memTop : t.memTop = s.memTop
  ie : t.ie = s.ie
  status : t.status = s.status
  regs : t.regs = s.regs
  crcResult : t.crcResult = s.crcResult
  xferCount : t.xferCount = s.xferCount
  mem : t.mem = s.mem
  out : t.out = s.out
  engine : t.engine = s.engine

theorem SameBlock.refl (s : State) : SameBlock s s := ⟨rfl, rfl, rfl, rfl, rfl, rfl, rfl, rfl, rfl⟩

theorem sameBlock_setInputs (l : List Event) (s : State) : SameBlock s (s.setInputs l) :=
  ⟨rfl, rfl, rfl, rfl, rfl, rfl, rfl, rfl, rfl⟩

/-- Everything the engine and the consumer can do to `s` in one step. -/
inductive EngineMove (s t : State) : Prop
  /-- the engine is idle or waits -/
  | waits (same : t = s)
  /-- a started word is illegal or its command's checks fail -/
  | raises (e : InvalidArgument) (error : t = errorComplete e s)
  /-- a started command passes its checks -/
  | loads (i : Instr) (phase : s.engine.phase = .run) (op : decode s.engine.op = .ok i) (pass : raises i s = none)
      (load : t = loaded i s)
  /-- a started command passes its checks and goes on -/
  | loadsAndDrains (i : Instr) (phase : s.engine.phase = .run) (op : decode s.engine.op = .ok i)
      (pass : raises i s = none) (drains : drain (loaded i s) = .next t)
  /-- a validated command performs its next event -/
  | performs (ev : EngineEvent) (rest : List EngineEvent) (pending : s.engine.pending = ev :: rest)
      (event : perform ev rest s = .next t)
  /-- a validated command goes on -/
  | drains (drains : drain s = .next t)

theorem pendingEvent_moves {go : Bool} {s t : State} (h : pendingEvent go s = .next t) : EngineMove s t := by
  rw [pendingEvent] at h
  split at h
  next => exact .waits (Host.Outcome.next.inj h).symm
  next ev rest hpending =>
    split at h
    next => exact .waits (Host.Outcome.next.inj h).symm
    next => exact .performs ev rest hpending h

theorem acceptEvent_moves {s t : State} (h : acceptEvent s = .next t) : EngineMove s t := by
  rw [acceptEvent] at h
  split at h
  next => exact pendingEvent_moves h
  next => exact .waits (Host.Outcome.next.inj h).symm

theorem validateEvent_moves {s : State} (hrun : s.engine.phase = .run) : EngineMove s (validateEvent s) := by
  rw [validateEvent]
  split
  next i hop =>
    cases hr : raises i s with
    | some e => exact .raises e (beginCommand_raises hr)
    | none => exact .loads i hrun hop hr (beginCommand_passes hr)
  next => exact .raises .illegalCmd rfl

theorem engineEvent_moves {s t : State} (h : engineEvent s = .next t) : EngineMove s t := by
  rw [engineEvent] at h
  split at h
  next => exact .waits (Host.Outcome.next.inj h).symm
  next hrun =>
    split at h
    next => exact pendingEvent_moves h
    next => exact Host.Outcome.next.inj h ▸ validateEvent_moves hrun

theorem engineRun_moves {s t : State} (h : engineRun s = .next t) : EngineMove s t := by
  rw [engineRun] at h
  split at h
  next => exact .waits (Host.Outcome.next.inj h).symm
  next hrun =>
    split at h
    next => exact .drains h
    next =>
      split at h
      next i hop =>
        rcases exec_cases h with ⟨e, -, rfl⟩ | ⟨hr, hdrain⟩
        · exact .raises e rfl
        · exact .loadsAndDrains i hrun hop hr hdrain
      next => exact .raises .illegalCmd (Host.Outcome.next.inj h).symm

/-- Everything a step can do to `s`, once the next scheduled event is off the schedule. -/
inductive BlockMove (s t : State) : Prop
  /-- the host reads, or the consumer changes its mind -/
  | outside (same : SameBlock s t)
  /-- the host writes a register -/
  | registerWrite (n : RegName) (v : Word) (write : t = regWrite n v s)
  /-- the host writes a cell inside MEM -/
  | memoryWrite (a : Nat) (b : Byte) (inside : a < s.memSize) (write : t = s.setMem (memPut s.mem a b))
  /-- the engine or the consumer moves -/
  | engine (moves : EngineMove s t)
  | reset (reset : t = warmReset s)
  | powerOn (power : t = Machine.powerOn s)

theorem hostGetsCell_same {a : Nat} {v : Option Byte} {s t : State} (h : hostGetsCell a v s = .next t) :
    SameBlock s t := by
  cases v with
  | some b => exact Host.Outcome.next.inj h ▸ ⟨rfl, rfl, rfl, rfl, rfl, rfl, rfl, rfl, rfl⟩
  | none => cases h

theorem hostMemRead_same {a : Word} {s t : State} (h : hostMemRead a s = .next t) : SameBlock s t := by
  simp only [hostMemRead] at h
  split at h
  next => exact Host.Outcome.next.inj h ▸ ⟨rfl, rfl, rfl, rfl, rfl, rfl, rfl, rfl, rfl⟩
  next =>
    split at h
    next =>
      obtain ⟨h1, h2, h3, h4, h5, h6, h7, h8, h9⟩ := hostGetsCell_same h
      exact ⟨h1, h2, h3, h4, h5, h6, h7, h8, h9⟩
    next => exact hostGetsCell_same h

theorem hostMemWrite_moves {a : Word} {b : Byte} {s t : State} (h : hostMemWrite a b s = .next t) : BlockMove s t := by
  simp only [hostMemWrite] at h
  split at h
  next => exact .outside (Host.Outcome.next.inj h ▸ SameBlock.refl s)
  next hin =>
    split at h
    next => cases h
    next => exact .memoryWrite a.toNat b (Nat.lt_of_not_le hin) (Host.Outcome.next.inj h).symm

theorem hostPoll_same (s : State) : SameBlock s (hostPoll s) := by
  simp only [hostPoll]
  split <;> exact ⟨rfl, rfl, rfl, rfl, rfl, rfl, rfl, rfl, rfl⟩

theorem performEvent_moves {e : Event} {s t : State} (h : performEvent e s = .next t) : BlockMove s t := by
  cases e with
  | hostRead addr => exact .outside (Host.Outcome.next.inj h ▸ ⟨rfl, rfl, rfl, rfl, rfl, rfl, rfl, rfl, rfl⟩)
  | hostWrite addr v => exact .registerWrite (regAt addr) v (Host.Outcome.next.inj h).symm
  | memRead addr => exact .outside (hostMemRead_same h)
  | memWrite addr b => exact hostMemWrite_moves h
  | poll => exact .outside (Host.Outcome.next.inj h ▸ hostPoll_same s)
  | engine => exact .engine (engineEvent_moves h)
  | run => exact .engine (engineRun_moves h)
  | accept => exact .engine (acceptEvent_moves h)
  | consumer ready => exact .outside (Host.Outcome.next.inj h ▸ ⟨rfl, rfl, rfl, rfl, rfl, rfl, rfl, rfl, rfl⟩)
  | reset => exact .reset (Host.Outcome.next.inj h).symm
  | powerOn => exact .powerOn (Host.Outcome.next.inj h).symm

/-- Every step is one move of the block with the next event off its schedule. -/
theorem step_moves {s t : State} (h : step s = .next t) : ∃ l, BlockMove (s.setInputs l) t := by
  rw [step, advance] at h
  split at h
  next hnil =>
    refine ⟨[], .engine (engineRun_moves ?_)⟩
    rwa [← hnil]
  next e rest _ => exact ⟨rest, performEvent_moves h⟩

end Sys2Proof.Machine

/-! # Proofs: the block's invariant (10_state R23, R42; 20_memory R51) -/

namespace Sys2Proof

open Sys2Proof.Machine

variable {s t : State}

theorem BlockInv.sameBlock (h : BlockInv s) (same : SameBlock s t) : BlockInv t :=
  h.congr same.memTop same.mem same.status same.regs same.engine

/-! ## The host's moves -/

theorem MemInv.put (h : MemInv s) (a : Nat) (b : Byte) (ha : a < s.memSize) :
    MemInv (s.setMem (memPut s.mem a b)) := by
  refine ⟨memPut_wf a b h.canonical, fun c hc => ?_⟩
  rcases mem_memPut hc with rfl | hc
  · exact ha
  · exact h.inside c hc

theorem BlockInv.memoryWrite (h : BlockInv s) {a : Nat} (b : Byte) (ha : a < s.memSize) :
    BlockInv (s.setMem (memPut s.mem a b)) :=
  ⟨h.mem.put a b ha, h.status.congr rfl rfl, h.engine.congr rfl rfl rfl rfl⟩

/-- LAST_OP is all that the engine's part of the invariant reads in STATUS. -/
theorem EngineInv.setStatus (h : EngineInv s) {st : Status} (hop : st.lastOp = s.status.lastOp) :
    EngineInv (s.setStatus st) :=
  ⟨hop.trans h.lastOp, h.idle, h.started, h.running⟩

/-- ERR and ERR_CODE are cleared together, so R23's rules survive (R24). -/
theorem StatusInv.acknowledge (h : StatusInv s) (v : Word) : StatusInv (acknowledge v s) := by
  refine ⟨fun hbusy => ?_, fun herr => ?_, fun herr => ?_⟩
  · obtain ⟨hdone, herr, hcode⟩ := h.busy hbusy
    simp [Machine.acknowledge, statusW1C, hdone, herr, hcode]
  · simp only [Machine.acknowledge, statusW1C, State.setStatus_status] at herr ⊢
    split
    next => rfl
    next hv =>
      rw [Bool.not_eq_true] at hv
      rw [hv, Bool.not_false, Bool.and_true] at herr
      exact h.clean herr
  · simp only [Machine.acknowledge, statusW1C, State.setStatus_status, Bool.and_eq_true, Bool.not_eq_true'] at herr ⊢
    obtain ⟨herr, hv⟩ := herr
    rw [hv, if_neg Bool.false_ne_true]
    exact h.code herr

theorem BlockInv.acknowledge (h : BlockInv s) (v : Word) : BlockInv (acknowledge v s) :=
  ⟨h.mem.congr rfl rfl, h.status.acknowledge v, h.engine.setStatus rfl⟩

theorem BlockInv.ignoredWrite (h : BlockInv s) : BlockInv (ignoredWrite s) :=
  ⟨h.mem.congr rfl rfl, ⟨h.status.busy, h.status.clean, h.status.code⟩, h.engine.setStatus rfl⟩

theorem BlockInv.start (h : BlockInv s) (w : Word) : BlockInv (start w s) where
  mem := h.mem.congr rfl rfl
  status := ⟨fun _ => ⟨rfl, rfl, rfl⟩, fun _ => rfl, fun herr => by cases herr⟩
  engine := ⟨rfl, fun hidle => (nomatch hidle), fun _ _ => rfl, fun _ hval => by cases hval⟩

/-- The argument registers of an idle block are free: the invariant reads them only while a command runs. -/
theorem BlockInv.setRegs (h : BlockInv s) (r : Regs) (hidle : s.busy = false) : BlockInv (s.setRegs r) := by
  refine ⟨h.mem.congr rfl rfl, h.status.congr rfl rfl, h.engine.lastOp, h.engine.idle, h.engine.started, fun hrun => ?_⟩
  exact absurd (busy_eq_true_of_run (s := s) hrun) (by simp [hidle])

theorem BlockInv.regWrite (h : BlockInv s) (n : RegName) (v : Word) : BlockInv (regWrite n v s) := by
  rcases regWrite_cases n v s with e | ⟨-, e⟩ | ⟨-, e⟩ | ⟨-, e⟩ | ⟨-, -, e⟩ | ⟨hidle, a, -, e⟩ <;> rw [e]
  · exact h
  · exact h.congr rfl rfl rfl rfl rfl
  · exact h.acknowledge v
  · exact h.ignoredWrite
  · exact h.start v
  · exact h.setRegs _ hidle

/-! ## Resets -/

/-- The reset values of STATUS and of the engine obey the invariant in any state. -/
theorem BlockInv.of_registersReset (hreset : RegistersReset t) (hmem : MemInv t) : BlockInv t := by
  refine ⟨hmem, ?status, ?engine⟩
  case status =>
    refine ⟨fun hbusy => ?_, fun _ => ?_, fun herr => ?_⟩
    · rw [busy_eq_false_of_idle hreset.idle] at hbusy; cases hbusy
    · rw [hreset.status]; rfl
    · rw [hreset.status] at herr; cases herr
  case engine =>
    refine ⟨?_, fun _ => ⟨?_, hreset.pending⟩, fun _ _ => hreset.pending, fun hrun => ?_⟩
    · rw [hreset.status, hreset.engine]; rfl
    · rw [hreset.engine]; rfl
    · rw [hreset.idle] at hrun; cases hrun

theorem BlockInv.warmReset (h : BlockInv s) : BlockInv (warmReset s) :=
  .of_registersReset (warmReset_registersReset s)
    ⟨eraseRanges_wf _ h.mem.canonical, fun c hc => h.mem.inside c (mem_eraseRanges hc)⟩

theorem blockInv_powerOn (s : State) : BlockInv (powerOn s) :=
  .of_registersReset (powerOn_registersReset s) ⟨List.Pairwise.nil, fun _ hc => nomatch hc⟩

/-- Settles O55: `State.reset` has the registers' reset values and no written cell. -/
theorem invariantHoldsAtReset : Obligations.InvariantHoldsAtReset :=
  .of_registersReset ⟨rfl, rfl, rfl, rfl, rfl, rfl⟩ ⟨reset_mem_wf, fun _ hc => nomatch hc⟩

/-! ## The engine's moves -/

/-- Once the engine is idle with nothing pending, only R23's rules for ERR are left to show. -/
theorem BlockInv.engineIdle {st : Status} (h : BlockInv s) (htop : t.memTop = s.memTop) (hmem : t.mem = s.mem)
    (hstatus : t.status = st) (hengine : t.engine = engineIdle s.engine) (hop : st.lastOp = s.status.lastOp)
    (hclean : st.err = false → st.errCode = 0#4)
    (hcode : st.err = true → 1 ≤ st.errCode.toNat ∧ st.errCode.toNat ≤ 7) : BlockInv t := by
  subst hstatus
  have hidle : t.engine.phase = .idle := by rw [hengine]; rfl
  refine ⟨h.mem.congr htop hmem, ⟨fun hbusy => ?_, hclean, hcode⟩, ?engine⟩
  · rw [busy_eq_false_of_idle hidle] at hbusy; cases hbusy
  case engine =>
    refine ⟨?_, fun _ => ?_, fun hrun => ?_, fun hrun => ?_⟩
    · rw [hop, hengine]; exact h.engine.lastOp
    · rw [hengine]; exact ⟨rfl, rfl⟩
    · rw [hidle] at hrun; cases hrun
    · rw [hidle] at hrun; cases hrun

theorem errorCode_range (e : InvalidArgument) : 1 ≤ (errorCode e).toNat ∧ (errorCode e).toNat ≤ 7 := by
  cases e <;> decide

theorem BlockInv.errorComplete (h : BlockInv s) (e : InvalidArgument) : BlockInv (errorComplete e s) :=
  h.engineIdle rfl rfl rfl rfl rfl (fun herr => by cases herr) (fun _ => errorCode_range e)

theorem BlockInv.complete (h : BlockInv s) (c : Option Word) (x : Word) : BlockInv (complete c x s) :=
  h.engineIdle rfl rfl rfl rfl rfl h.status.clean h.status.code

theorem BlockInv.loaded (h : BlockInv s) {i : Instr} (hrun : s.engine.phase = .run)
    (hop : decode s.engine.op = .ok i) (hpass : raises i s = none) : BlockInv (loaded i s) where
  mem := h.mem.congr rfl rfl
  status := h.status.congr rfl rfl
  engine := {
    lastOp := h.engine.lastOp
    idle := fun hidle => by rw [show (Machine.loaded i s).engine.phase = .run from hrun] at hidle; cases hidle
    started := fun _ hval => by cases hval
    running := fun _ _ => ⟨i, hop, hpass, eventsOf_ne_nil i s.regs, List.suffix_refl _⟩ }

/-- A block with events pending runs a validated command that has these events left. -/
theorem BlockInv.running_of_pending (h : BlockInv s) {ev : EngineEvent} {rest : List EngineEvent}
    (hp : s.engine.pending = ev :: rest) :
    s.engine.phase = .run ∧ s.engine.validated = true ∧
      ∃ i, decode s.engine.op = .ok i ∧ raises i s = none ∧ ev :: rest <:+ eventsOf i s.regs := by
  have hne : s.engine.pending ≠ [] := by simp [hp]
  have hrun : s.engine.phase = .run := by
    cases hphase : s.engine.phase with
    | run => rfl
    | idle => exact absurd (h.engine.idle hphase).2 hne
  have hval : s.engine.validated = true := by
    cases hv : s.engine.validated with
    | true => rfl
    | false => exact absurd (h.engine.started hrun hv) hne
  obtain ⟨i, hop, hpass, -, hsuffix⟩ := h.engine.running hrun hval
  exact ⟨hrun, hval, i, hop, hpass, hp ▸ hsuffix⟩

/-- A command writes only inside MEM, so an event of it keeps MEM's part. -/
theorem MemInv.perform (h : MemInv s) {i : Instr} {ev : EngineEvent} {rest : List EngineEvent}
    (hpass : raises i s = none) (hev : ev ∈ eventsOf i s.regs) (hp : perform ev rest s = .next t) : MemInv t := by
  have htop := (perform_keeps hp).memTop
  rcases perform_mem hp with ⟨-, hmem⟩ | ⟨dst, b, htarget, hmem⟩
  · exact h.congr htop hmem
  · have hin : dst < s.memSize := target_inside hpass (List.mem_filterMap.2 ⟨ev, hev, htarget⟩)
    exact (h.put dst b hin).congr htop hmem

/-- The checks look at MEM_SIZE and the argument registers only. -/
theorem raises_congr (i : Instr) (htop : t.memTop = s.memTop) (hregs : t.regs = s.regs) : raises i t = raises i s := by
  rw [raises, raises, State.memSize, State.memSize, htop, hregs]

/-- An event that does not end the command leaves it with later events of its own list. -/
theorem EngineInv.stillRunning (h : EngineInv s) {i : Instr} {rest : List EngineEvent} (hrun : s.engine.phase = .run)
    (hval : s.engine.validated = true) (hop : decode s.engine.op = .ok i) (hpass : raises i s = none)
    (keeps : EngineKeeps s t) (still : StillRunning rest s t) (hrest : rest ≠ [])
    (hsuffix : rest <:+ eventsOf i s.regs) : EngineInv t := by
  refine ⟨?_, fun hidle => ?_, fun _ hv => ?_, fun _ _ => ⟨i, ?_, ?_, ?_, ?_⟩⟩
  · rw [keeps.lastOp, keeps.op]; exact h.lastOp
  · rw [still.phase, hrun] at hidle; cases hidle
  · rw [still.validated, hval] at hv; cases hv
  · rw [keeps.op]; exact hop
  · rw [raises_congr i keeps.memTop keeps.regs]; exact hpass
  · rw [still.pending]; exact hrest
  · rw [still.pending, keeps.regs]; exact hsuffix

/-- The next event of the running command either ends it or leaves the events after it. -/
theorem BlockInv.perform (h : BlockInv s) {ev : EngineEvent} {rest : List EngineEvent}
    (hp : s.engine.pending = ev :: rest) (hperform : perform ev rest s = .next t) :
    BlockInv t ∧ t.engine.pending = rest := by
  obtain ⟨hrun, hval, i, hop, hpass, hsuffix⟩ := h.running_of_pending hp
  have hlast := isCompletion_iff_last hsuffix
  cases hev : isCompletion ev with
  | true =>
    obtain ⟨c, x, rfl⟩ := perform_completion hev hperform
    exact ⟨h.complete c x, (hlast.1 hev).symm⟩
  | false =>
    have keeps := perform_keeps hperform
    have still := perform_stillRunning hev hperform
    have hrest : rest ≠ [] := fun hnil => by simp [hlast.2 hnil] at hev
    have hmem := h.mem.perform hpass (hsuffix.subset List.mem_cons_self) hperform
    have hengine :=
      h.engine.stillRunning hrun hval hop hpass keeps still hrest ((List.suffix_cons ev rest).trans hsuffix)
    exact ⟨⟨hmem, h.status.congr still.phase still.status, hengine⟩, still.pending⟩

theorem BlockInv.performAll {evs : List EngineEvent} (h : BlockInv s) (hp : s.engine.pending = evs)
    (hall : performAll evs s = .next t) : BlockInv t := by
  induction evs generalizing s with
  | nil => exact Host.Outcome.next.inj hall ▸ h
  | cons ev rest ih =>
    rw [Machine.performAll] at hall
    split at hall
    next => exact Host.Outcome.next.inj hall ▸ h
    next =>
      split at hall
      next u hu =>
        obtain ⟨hinv, hrest⟩ := h.perform hp hu
        exact ih hinv hrest hall
      next => cases hall
      next => cases hall

theorem BlockInv.engineMove (h : BlockInv s) (hmove : EngineMove s t) : BlockInv t := by
  cases hmove with
  | waits same => exact same ▸ h
  | raises e error => exact error ▸ h.errorComplete e
  | loads i phase op pass load => exact load ▸ h.loaded phase op pass
  | loadsAndDrains i phase op pass drains => exact (h.loaded phase op pass).performAll rfl drains
  | performs ev rest pending event => exact (h.perform pending event).1
  | drains drains => exact h.performAll rfl drains

/-- Settles O56: the schedule is not the block's, and each move of the block keeps the invariant. -/
theorem everyStepKeepsTheInvariant : Obligations.EveryStepKeepsTheInvariant := by
  intro s t hinv hstep
  obtain ⟨l, hmove⟩ := step_moves hstep
  have h : BlockInv (s.setInputs l) := hinv.sameBlock (sameBlock_setInputs l s)
  cases hmove with
  | outside same => exact h.sameBlock same
  | registerWrite n v write => exact write ▸ h.regWrite n v
  | memoryWrite a b inside write => exact write ▸ h.memoryWrite b inside
  | engine moves => exact h.engineMove moves
  | reset reset => exact reset ▸ h.warmReset
  | powerOn power => exact power ▸ blockInv_powerOn _

end Sys2Proof

/-! # Proofs: what commands and steps leave unchanged (10_state R33, R34, R38, R40; 20_memory R56, R57) -/

namespace Sys2Proof.Machine

/-! ## A command's events and its error completion -/

/-- A relation that the error completion, the passed validation and the command's own events keep is kept by the
command. -/
theorem exec_induct {P : State → State → Prop} {i : Instr} {s t : State} (hrefl : ∀ s, P s s)
    (htrans : ∀ {s t u}, P s t → P t u → P s u) (herror : ∀ e, P s (errorComplete e s)) (hload : P s (loaded i s))
    (hevent : ∀ {ev rest u v}, ev ∈ eventsOf i s.regs → perform ev rest u = .next v → P u v)
    (h : exec i s = .next t) : P s t := by
  rcases exec_cases h with ⟨e, -, rfl⟩ | ⟨-, hdrain⟩
  · exact herror e
  · exact htrans hload (performAll_induct hrefl htrans hevent hdrain)

theorem exec_keeps {i : Instr} {s t : State} (h : exec i s = .next t) : EngineKeeps s t := by
  rw [exec_eq_runCommand] at h
  exact runCommand_keeps h

/-- Settles O28: no engine event changes any of this. -/
theorem commandsWriteNoArgument : Obligations.CommandsWriteNoArgument := by
  intro s t i h
  have k := exec_keeps h
  exact ⟨k.regs, k.ie, k.wign, k.lastOp, k.memTop, k.op, k.ready, k.inputs, k.hostReads, k.draws⟩

/-! ## CRC_RESULT and XFER_COUNT -/

/-- An event that completes no CRC leaves CRC_RESULT as it was (R143). -/
theorem perform_crcResult {ev : EngineEvent} {rest : List EngineEvent} {s t : State}
    (hev : ∀ x, ev ≠ .complete true x) (h : perform ev rest s = .next t) : t.crcResult = s.crcResult := by
  cases hc : isCompletion ev with
  | false => exact (perform_stillRunning hc h).crcResult
  | true =>
    cases ev with
    | complete crc x =>
      cases crc with
      | true => exact absurd rfl (hev x)
      | false => exact Host.Outcome.next.inj h ▸ rfl
    | crcInit | crcFold src | emit src fold | emitCrc k last | store dst src => cases hc

/-- Only CRC and CHUNK complete with a CRC (R103, R112). -/
theorem complete_true_not_mem_eventsOf {i : Instr} (r : Regs) (hcrc : i ≠ .crc) (hchunk : i ≠ .chunk) (x : Word) :
    .complete true x ∉ eventsOf i r := by
  obtain ⟨evs, crc, y, heq, hevs, hwrites⟩ := eventsOf_shape i r
  rw [heq, List.mem_append, List.mem_singleton]
  rintro (hmem | hlast)
  · exact absurd (hevs _ hmem) (by simp [isCompletion])
  · cases hlast
    exact (hwrites rfl).elim hcrc hchunk

/-- Settles O29: the error completion keeps CRC_RESULT, and no other command's completion carries a CRC. -/
theorem onlyCrcAndChunkWriteCrcResult : Obligations.OnlyCrcAndChunkWriteCrcResult := by
  intro s t i h hi
  cases hr : raises i s with
  | some e =>
    rw [exec_raises hr] at h
    exact Host.Outcome.next.inj h ▸ rfl
  | none =>
    have hne : i ≠ .crc ∧ i ≠ .chunk := by
      rcases hi with rfl | rfl | rfl | hraises
      · simp
      · simp
      · simp
      · exact absurd hr hraises
    refine exec_induct (P := fun u v => v.crcResult = u.crcResult) (fun _ => rfl) (fun h1 h2 => h2.trans h1)
      (fun _ => rfl) rfl (fun hmem hp => perform_crcResult (fun x hx => ?_) hp) h
    exact complete_true_not_mem_eventsOf s.regs hne.1 hne.2 x (hx ▸ hmem)

/-- The results are as before, as far as `t` is still busy; then `s` was busy, too. -/
def ResultsHeldWhileBusy (s t : State) : Prop :=
  t.busy = true → s.busy = true ∧ t.crcResult = s.crcResult ∧ t.xferCount = s.xferCount

theorem ResultsHeldWhileBusy.refl (s : State) : ResultsHeldWhileBusy s s := fun h => ⟨h, rfl, rfl⟩

theorem ResultsHeldWhileBusy.trans {s t u : State} (h : ResultsHeldWhileBusy s t) (k : ResultsHeldWhileBusy t u) :
    ResultsHeldWhileBusy s u := by
  intro hu
  obtain ⟨ht, hcrc, hxfer⟩ := k hu
  obtain ⟨hs, hcrc', hxfer'⟩ := h ht
  exact ⟨hs, hcrc.trans hcrc', hxfer.trans hxfer'⟩

/-- A completion leaves the block idle, and every other event leaves the results (R179). -/
theorem perform_resultsHeld {ev : EngineEvent} {rest : List EngineEvent} {s t : State}
    (h : perform ev rest s = .next t) : ResultsHeldWhileBusy s t := by
  intro hbusy
  cases hev : isCompletion ev with
  | true =>
    obtain ⟨c, x, rfl⟩ := perform_completion hev h
    rw [busy_eq_false_of_idle rfl] at hbusy
    cases hbusy
  | false =>
    have still := perform_stillRunning hev h
    exact ⟨by rwa [State.busy, ← still.phase], still.crcResult, still.xferCount⟩

theorem performAll_resultsHeld {evs : List EngineEvent} {s t : State} (h : performAll evs s = .next t) :
    ResultsHeldWhileBusy s t :=
  performAll_induct .refl .trans (fun _ hp => perform_resultsHeld hp) h

theorem loaded_resultsHeld (i : Instr) (s : State) : ResultsHeldWhileBusy s (loaded i s) := fun h => ⟨h, rfl, rfl⟩

theorem EngineMove.resultsHeld {s t : State} (h : EngineMove s t) : ResultsHeldWhileBusy s t := by
  cases h with
  | waits same => exact same ▸ .refl s
  | raises e error =>
    subst error
    intro hbusy
    rw [busy_eq_false_of_idle rfl] at hbusy
    cases hbusy
  | loads i phase op pass load => exact load ▸ loaded_resultsHeld i s
  | loadsAndDrains i phase op pass drains => exact (loaded_resultsHeld i s).trans (performAll_resultsHeld drains)
  | performs ev rest pending event => exact perform_resultsHeld event
  | drains drains => exact performAll_resultsHeld drains

/-- A register write to a busy block reaches neither result: it cannot start a command. -/
theorem regWrite_results (n : RegName) (v : Word) {s : State} (hbusy : s.busy = true) :
    (regWrite n v s).crcResult = s.crcResult ∧ (regWrite n v s).xferCount = s.xferCount := by
  rcases regWrite_cases n v s with e | ⟨-, e⟩ | ⟨-, e⟩ | ⟨-, e⟩ | ⟨-, hidle, e⟩ | ⟨hidle, a, -, e⟩
  · rw [e]; exact ⟨rfl, rfl⟩
  · rw [e]; exact ⟨rfl, rfl⟩
  · rw [e]; exact ⟨rfl, rfl⟩
  · rw [e]; exact ⟨rfl, rfl⟩
  · rw [hbusy] at hidle; cases hidle
  · rw [hbusy] at hidle; cases hidle

/-- Settles O30: a host's move does not reach the results, an engine's move holds them as long as the block stays busy,
and after a reset the block is idle. -/
theorem resultsChangeOnlyAtCompletion : Obligations.ResultsChangeOnlyAtCompletion := by
  intro s t hs hstep ht
  obtain ⟨l, hmove⟩ := step_moves hstep
  cases hmove with
  | outside same => exact ⟨same.crcResult, same.xferCount⟩
  | registerWrite n v write => exact write ▸ regWrite_results n v (s := s.setInputs l) hs
  | memoryWrite a b inside write => exact write ▸ ⟨rfl, rfl⟩
  | engine moves => exact (moves.resultsHeld ht).2
  | reset reset =>
    rw [reset, busy_eq_false_of_idle rfl] at ht
    cases ht
  | powerOn power =>
    rw [power, busy_eq_false_of_idle rfl] at ht
    cases ht

/-! ## irq -/

/-- A completion sets DONE, and no other event makes the block idle (R143). -/
theorem perform_busy_or_done {ev : EngineEvent} {rest : List EngineEvent} {s t : State}
    (h : perform ev rest s = .next t) (hs : s.busy = true ∨ s.status.done = true) :
    t.busy = true ∨ t.status.done = true := by
  cases hev : isCompletion ev with
  | true =>
    obtain ⟨c, x, rfl⟩ := perform_completion hev h
    exact .inr rfl
  | false =>
    have still := perform_stillRunning hev h
    rwa [State.busy, still.phase, still.status]

theorem exec_busy_or_done {i : Instr} {s t : State} (hs : s.busy = true) (h : exec i s = .next t) :
    t.busy = true ∨ t.status.done = true :=
  exec_induct (P := fun u v => u.busy = true ∨ u.status.done = true → v.busy = true ∨ v.status.done = true)
    (fun _ hu => hu) (fun h1 h2 hu => h2 (h1 hu)) (fun _ _ => .inr rfl) (fun _ => .inl hs)
    (fun _ hp => perform_busy_or_done hp) h (.inl hs)

/-- Settles O34: irq is the conjunction by definition; a block that has ended its command shows DONE, and IE is kept. -/
theorem irqIsIeAndDone : Obligations.IrqIsIeAndDone := by
  constructor
  · intro s
    rw [State.irq, Bool.and_eq_true]
  · intro s t i hs h ht
    have hdone : t.status.done = true := (exec_busy_or_done hs h).resolve_left (by simp [ht])
    rw [State.irq, hdone, Bool.and_true, (exec_keeps h).ie]

/-! ## MEM, OUT and MEM_SIZE -/

/-- A cell that an event does not write keeps its byte. -/
theorem perform_memGet {ev : EngineEvent} {rest : List EngineEvent} {s t : State} {a : Nat}
    (hev : eventTarget ev ≠ some a) (h : perform ev rest s = .next t) : memGet t.mem a = memGet s.mem a := by
  rcases perform_mem h with ⟨-, hmem⟩ | ⟨dst, b, htarget, hmem⟩
  · rw [hmem]
  · rw [hmem, memGet_memPut_other]
    rintro rfl
    exact hev htarget

/-- Settles O31: a command's stores go to the cells of its destination, and only SCANLINE has one. -/
theorem onlyScanlineWritesMem : Obligations.OnlyScanlineWritesMem := by
  intro s t i h
  constructor
  · intro hi
    refine exec_induct (P := fun u v => v.mem = u.mem) (fun _ => rfl) (fun h1 h2 => h2.trans h1) (fun _ => rfl) rfl
      (fun {ev _ _ _} hmem hp => ?_) h
    rcases perform_mem hp with ⟨-, hsame⟩ | ⟨dst, b, htarget, -⟩
    · exact hsame
    · have hdst : dst ∈ targetsOf (eventsOf i s.regs) := List.mem_filterMap.2 ⟨ev, hmem, htarget⟩
      rw [targetsOf_eventsOf s.regs hi] at hdst
      cases hdst
  · intro a hout
    refine exec_induct (P := fun u v => memGet v.mem a = memGet u.mem a) (fun _ => rfl) (fun h1 h2 => h2.trans h1)
      (fun _ => rfl) rfl (fun {ev _ _ _} hmem hp => perform_memGet (fun htarget => ?_) hp) h
    have hrange := mem_targetsOf_eventsOf.1 (List.mem_filterMap.2 ⟨ev, hmem, htarget⟩)
    by_cases hi : i = .scanline
    · subst hi
      simp only [writeRanges, scanLen, List.any_cons, List.any_nil, Bool.or_false, inRange, Bool.and_eq_true,
        decide_eq_true_eq] at hrange
      omega
    · cases i with
      | scanline => exact hi rfl
      | nop | crc | chunk | encode => simp [writeRanges] at hrange

/-- An event appends to OUT or leaves it (R57). -/
theorem perform_out {ev : EngineEvent} {rest : List EngineEvent} {s t : State} (h : perform ev rest s = .next t) :
    s.out <+: t.out := by
  rcases perform_cases h with ⟨-, rfl⟩ | ⟨src, b, -, -, rfl⟩ | ⟨src, b, fold, -, -, rfl⟩ | ⟨k, last, -, rfl⟩ |
    ⟨dst, src, b, -, -, rfl⟩ | ⟨crc, x, -, rfl⟩
  · exact List.prefix_refl _
  · exact List.prefix_refl _
  · cases fold <;> exact List.prefix_append ..
  · exact List.prefix_append ..
  · exact List.prefix_refl _
  · exact List.prefix_refl _

/-- Emission is the only primitive move that touches OUT. -/
theorem stepMoves_out : StepMoves fun s t => s.out <+: t.out where
  refl _ := List.prefix_refl _
  trans := List.IsPrefix.trans
  schedule _ _ := List.prefix_refl _
  hostGets _ _ := List.prefix_refl _
  draws _ _ := List.prefix_refl _
  consumer _ _ := List.prefix_refl _
  ie _ _ := List.prefix_refl _
  acknowledge _ _ := List.prefix_refl _
  ignoredWrite _ := List.prefix_refl _
  start _ _ _ := List.prefix_refl _
  regs _ _ _ := List.prefix_refl _
  memWrite _ _ _ := List.prefix_refl _
  perform := perform_out
  errorComplete _ _ := List.prefix_refl _
  load _ _ := List.prefix_refl _
  warmReset _ := List.prefix_refl _

/-- Settles O32: every step but a power-on is made of the primitive moves. -/
theorem outOnlyGrows : Obligations.OutOnlyGrows :=
  fun _ _ hstep hpower => stepMoves_out.step hstep hpower

/-- No move but a power-on touches MEM_SIZE. -/
theorem stepMoves_memTop : StepMoves fun s t => t.memTop = s.memTop where
  refl _ := rfl
  trans h k := k.trans h
  schedule _ _ := rfl
  hostGets _ _ := rfl
  draws _ _ := rfl
  consumer _ _ := rfl
  ie _ _ := rfl
  acknowledge _ _ := rfl
  ignoredWrite _ := rfl
  start _ _ _ := rfl
  regs _ _ _ := rfl
  memWrite _ _ _ := rfl
  perform h := (perform_keeps h).memTop
  errorComplete _ _ := rfl
  load _ _ := rfl
  warmReset _ := rfl

/-- Settles O57: a power-on keeps MEM_SIZE, too. -/
theorem memSizeNeverChanges : Obligations.MemSizeNeverChanges := by
  intro s t hstep
  refine congrArg (fun top : Word => top.toNat + 1) (?_ : t.memTop = s.memTop)
  by_cases hpower : ∃ rest, s.inputs = .powerOn :: rest
  · obtain ⟨rest, hin⟩ := hpower
    rw [step_powerOn hin] at hstep
    exact Host.Outcome.next.inj hstep ▸ rfl
  · exact stepMoves_memTop.step hstep fun rest hin => hpower ⟨rest, hin⟩

end Sys2Proof.Machine

/-! # Proofs: the decoder (30_encoding R70, R72, R73) -/

namespace Sys2Proof

/-- The opcode map and the opcodes are inverse to each other (R72). -/
theorem opcodeInstr_eq_some_iff {op : BitVec 4} {i : Instr} : opcodeInstr op = some i ↔ op = opcodeOf i := by
  cases i <;> (revert op; decide)

/-- The opcodes from 0x5 on are reserved (R72). -/
theorem opcodeInstr_eq_none {op : BitVec 4} (h : 5 ≤ op.toNat) : opcodeInstr op = none := by
  revert op
  decide

/-- A word is made of its two fields (R70). -/
theorem word_eq_setWidth_iff {w : Word} {op : BitVec 4} : w = op.setWidth 32 ↔ rsvField w = 0#28 ∧ opField w = op := by
  have hw : w.toNat < 2 ^ 32 := w.isLt
  have hop : op.toNat < 2 ^ 4 := op.isLt
  simp only [← BitVec.toNat_inj, rsvField, opField, BitVec.extractLsb'_toNat, BitVec.toNat_setWidth, BitVec.toNat_ofNat,
    Nat.shiftRight_eq_div_pow]
  omega

theorem decode_of_opcode {w : Word} {i : Instr} (hrsv : rsvField w = 0#28) (hop : opField w = opcodeOf i) :
    decode w = .ok i := by
  rw [decode, if_pos hrsv, opcodeInstr_eq_some_iff.2 hop]

theorem decode_of_reservedOpcode {w : Word} (hrsv : rsvField w = 0#28) (hop : 5 ≤ (opField w).toNat) :
    decode w = .error .reservedOpcode := by
  rw [decode, if_pos hrsv, opcodeInstr_eq_none hop]

theorem decode_of_reservedBits {w : Word} (hrsv : rsvField w ≠ 0#28) : decode w = .error .reservedBits := by
  rw [decode, if_neg hrsv]

theorem decode_eq_ok_iff {w : Word} {i : Instr} : decode w = .ok i ↔ rsvField w = 0#28 ∧ opField w = opcodeOf i := by
  refine ⟨fun h => ?_, fun ⟨hrsv, hop⟩ => decode_of_opcode hrsv hop⟩
  by_cases hrsv : rsvField w = 0#28
  · refine ⟨hrsv, opcodeInstr_eq_some_iff.1 ?_⟩
    rw [decode, if_pos hrsv] at h
    split at h
    next j hj => cases h; exact hj
    next => cases h
  · rw [decode_of_reservedBits hrsv] at h
    cases h

theorem decode_eq_ok_iff_eq_encode {w : Word} {i : Instr} : decode w = .ok i ↔ w = encode i :=
  decode_eq_ok_iff.trans word_eq_setWidth_iff.symm

/-- Settles O2: both sides say that RSV is 0 and OP is the command's opcode. -/
theorem onlyTheTableWordsDecode : Obligations.OnlyTheTableWordsDecode :=
  fun _ _ => decode_eq_ok_iff_eq_encode

/-- Settles O1: a command's word is its own word. -/
theorem decodeOfEncodeIsTheInstruction : Obligations.DecodeOfEncodeIsTheInstruction :=
  fun _ _ => decode_eq_ok_iff_eq_encode.2 rfl

/-- Settles O3: five words are those that the encoder writes; 5 has a reserved opcode, 0x80000001 a reserved bit. -/
theorem tableWordsDecode : Obligations.TableWordsDecode :=
  ⟨decode_eq_ok_iff_eq_encode.2 rfl, decode_eq_ok_iff_eq_encode.2 rfl, decode_eq_ok_iff_eq_encode.2 rfl,
    decode_eq_ok_iff_eq_encode.2 rfl, decode_eq_ok_iff_eq_encode.2 rfl,
    decode_of_reservedOpcode (by decide) (by decide), decode_of_reservedBits (by decide)⟩

/-- Settles O4: the clauses are the three cases of the decoder. -/
theorem everyWordIsACommandOrIllegal : Obligations.EveryWordIsACommandOrIllegal := by
  intro w
  refine ⟨decode_of_reservedBits, fun hrsv => ⟨?nop, ?crc, ?chunk, ?scanline, ?encode, ?reserved⟩⟩
  case nop | crc | chunk | scanline | encode => exact fun hop => decode_of_opcode hrsv hop
  case reserved => exact decode_of_reservedOpcode hrsv

end Sys2Proof

/-! # Proofs: one step of the engine, of the consumer and of a register write (44_system R142, R147; 20_memory R58) -/

namespace Sys2Proof.Machine

/-! ## The engine's step -/

/-- With nothing scheduled the engine goes on (log 1). -/
theorem step_nothingScheduled {s : State} (h : s.inputs = []) : step s = engineRun s := by
  simp only [step, advance, h]

/-- A started command is run as its meaning. -/
theorem engineRun_started {s : State} {i : Instr} (hrun : s.engine.phase = .run) (hval : s.engine.validated = false)
    (hop : decode s.engine.op = .ok i) : engineRun s = exec i s := by
  rw [engineRun, hrun, hval, hop]
  rfl

/-- Settles O5: either schedule leads to the engine's run of the started command. -/
theorem stepRunsTheDecodedCommand : Obligations.StepRunsTheDecodedCommand := by
  intro s i rest hrun hval hop
  constructor
  · intro hin
    rw [step_nothingScheduled hin, engineRun_started hrun hval hop]
  · intro hin
    rw [step_run hin]
    exact engineRun_started (s := s.setInputs rest) hrun hval hop

/-- Settles O6: an illegal word raises ILLEGAL_CMD, so the engine's next event and its run are the error completion. -/
theorem illegalWordEndsWithIllegalCmd : Obligations.IllegalWordEndsWithIllegalCmd := by
  intro s e rest hrun hval hop hin
  have hraises : ∀ l, WordRaises (s.setInputs l).engine.op (s.setInputs l) .illegalCmd := fun _ => .inr ⟨e, hop, rfl⟩
  suffices hstep : step s = .next (errorComplete .illegalCmd (s.setInputs s.inputs.tail)) from
    hstep.trans (congrArg _ (errorComplete_eq ..))
  rcases hin with hin | hin | hin
  · have hsame : s.setInputs s.inputs.tail = s := by rw [hin, List.tail_nil, ← hin]; rfl
    rw [hsame, step_nothingScheduled hin]
    exact engineRun_raises hrun hval (.inr ⟨e, hop, rfl⟩)
  · rw [step_run hin, hin]
    exact engineRun_raises (s := s.setInputs rest) hrun hval (hraises rest)
  · rw [step_engine hin, hin]
    exact engineEvent_raises (s := s.setInputs rest) hrun hval (hraises rest)

/-! ## The consumer -/

/-- A scheduled accept of the consumer (R58). -/
theorem step_accept {s : State} {rest : List Event} (h : s.inputs = .accept :: rest) :
    step s = acceptEvent (s.setInputs rest) := by
  simp only [step, advance, h, performEvent]

/-- An accept performs the emission that the engine offers. -/
theorem acceptEvent_emission {s : State} {ev : EngineEvent} {more : List EngineEvent} (hrun : s.engine.phase = .run)
    (hval : s.engine.validated = true) (hp : s.engine.pending = ev :: more) (hev : isEmission ev = true) :
    acceptEvent s = perform ev more s := by
  have hoffers : offers s = true := by simp [offers, busy_eq_true_of_run hrun, hval, hp, hev]
  rw [acceptEvent, if_pos hoffers, pendingEvent, hp]
  simp

/-- Settles O46: the accept performs the emission at the head of the pending events. -/
theorem acceptMovesOneByte : Obligations.AcceptMovesOneByte := by
  intro s more rest hin hrun hval
  constructor
  · intro src b fold hp hb
    rw [step_accept hin, acceptEvent_emission (s := s.setInputs rest) hrun hval hp rfl]
    refine (withByte_some (s := s.setInputs rest) hb).trans ?_
    cases fold <;> rfl
  · intro k last hp
    rw [step_accept hin, acceptEvent_emission (s := s.setInputs rest) hrun hval hp rfl]
    rfl

/-- An emission that the consumer does not take keeps the engine where it is (R58). -/
theorem drain_waits {s : State} {ev : EngineEvent} {more : List EngineEvent} (hready : s.consumerReady = false)
    (hp : s.engine.pending = ev :: more) (hev : isEmission ev = true) : drain s = .next s := by
  rw [drain, hp, performAll, hev, hready]
  rfl

/-- Settles O47: the engine's run of a validated command drains its events, and the first one waits. -/
theorem stalledBlockStaysBusy : Obligations.StalledBlockStaysBusy := by
  intro s ev more hin hready hrun hval hp hev
  rw [step_nothingScheduled hin, engineRun, hrun, hval]
  exact drain_waits hready hp hev

/-! ## Register writes and words -/

/-- A write to an argument register of an idle block stores the word (R147). -/
theorem step_argWrite_idle {s : State} {addr v : Word} {rest : List Event} {a : ArgReg}
    (hin : s.inputs = .hostWrite addr v :: rest) (hidle : s.engine.phase = .idle) (hreg : regAt addr = .arg a) :
    step s = .next { s with inputs := rest, regs := setArg s.regs a v } := by
  have hbusy : (s.setInputs rest).busy = false := busy_eq_false_of_idle (s := s.setInputs rest) hidle
  rw [step_hostWrite hin, hostRegWrite, hreg, regWrite, hbusy]
  rfl

/-- Settles O9: each offset is that of its argument register, which takes the word. -/
theorem argumentWriteWhileIdle : Obligations.ArgumentWriteWhileIdle := by
  intro s addr v rest hin hidle
  have hwrite : ∀ {o : Nat} (a : ArgReg), regAtOffset o = .arg a → regOffset addr = o →
      step s = .next { s with inputs := rest, regs := setArg s.regs a v } :=
    fun a hmap hoff => step_argWrite_idle hin hidle ((congrArg regAtOffset hoff).trans hmap)
  exact ⟨hwrite .srcAddr rfl, hwrite .srcLen rfl, hwrite .dstAddr rfl, hwrite .tagAddr rfl, hwrite .tagLen rfl,
    hwrite .width rfl, hwrite .height rfl⟩

/-- Settles O10: offset 0x004 is CTRL, whose write does not ask whether the block is busy. -/
theorem ctrlWriteSetsIe : Obligations.CtrlWriteSetsIe := by
  intro s addr v rest hin hoff
  have hreg : regAt addr = .ctrl := congrArg regAtOffset hoff
  rw [step_hostWrite hin, hostRegWrite, hreg]
  rfl

/-- Settles O14: bits 11:2 of an address are its quotient by 4, modulo 1024. -/
theorem registerAddressBits : Obligations.RegisterAddressBits := by
  intro addr
  rw [regOffset, BitVec.extractLsb'_toNat, Nat.shiftRight_eq_div_pow]
  omega

/-- Above WIGN stand the two four-bit fields and nothing else (R23). -/
theorem statusWord_getLsbD_above (busy : Bool) (st : Status) {k : Nat} (hlow : 4 ≤ k) (hhigh : k < 32) :
    (statusWord busy st).getLsbD k =
      ((decide (12 ≤ k) && st.lastOp.getLsbD (k - 12)) || (decide (8 ≤ k) && st.errCode.getLsbD (k - 8))) := by
  have hflag : ∀ n, n < 4 → decide (k = n) = false := fun n hn => decide_eq_false (by omega)
  simp [statusWord_getLsbD busy st hhigh, hflag]

/-- A field above WIGN, bit by bit. -/
theorem statusWord_field {busy : Bool} {st : Status} {j n : Nat} {v : BitVec n} (hj : 4 ≤ j) (hn : j + n ≤ 32)
    (hbits : ∀ k, k < n →
      ((decide (12 ≤ j + k) && st.lastOp.getLsbD (j + k - 12)) ||
        (decide (8 ≤ j + k) && st.errCode.getLsbD (j + k - 8))) = v.getLsbD k) :
    (statusWord busy st).extractLsb' j n = v := by
  refine BitVec.eq_of_getLsbD_eq fun k hk => ?_
  rw [BitVec.getLsbD_extractLsb', statusWord_getLsbD_above busy st (by omega) (by omega), decide_eq_true hk,
    Bool.true_and, hbits k hk]

/-- Settles O15: the flags are bits 3:0; of the bits above, each belongs to ERR_CODE, to LAST_OP or to no field. -/
theorem statusWordFields : Obligations.StatusWordFields := by
  intro busy st
  refine ⟨?busy, ?done, ?err, ?wign, statusWord_field (by decide) (by decide) ?low,
    statusWord_field (by decide) (by decide) ?errCode, statusWord_field (by decide) (by decide) ?lastOp,
    statusWord_field (by decide) (by decide) ?high⟩
  case busy | done | err | wign =>
    rw [statusWord_getLsbD busy st (by decide)]
    simp
  case low =>
    intro k hk
    rw [decide_eq_false (by omega : ¬ 12 ≤ 4 + k), decide_eq_false (by omega : ¬ 8 ≤ 4 + k)]
    simp
  case errCode =>
    intro k hk
    rw [decide_eq_false (by omega : ¬ 12 ≤ 8 + k), decide_eq_true (by omega : 8 ≤ 8 + k)]
    simp
  case lastOp =>
    intro k hk
    rw [decide_eq_true (by omega : 12 ≤ 12 + k), BitVec.getLsbD_of_ge st.errCode _ (by omega)]
    simp
  case high =>
    intro k hk
    rw [BitVec.getLsbD_of_ge st.lastOp _ (by omega), BitVec.getLsbD_of_ge st.errCode _ (by omega)]
    simp

end Sys2Proof.Machine

/-! # Proofs: the results of NOP, CRC and CHUNK (44_system R145, 40_crc R103, 41_chunk R112) -/

namespace Sys2Proof.Machine

@[simp] theorem loaded_mem (i : Instr) (s : State) : (loaded i s).mem = s.mem := rfl
@[simp] theorem loaded_pending (i : Instr) (s : State) : (loaded i s).engine.pending = eventsOf i s.regs := rfl

/-! ## The marker of the last byte -/

theorem withLast_concat (bs : List Byte) (b : Byte) : withLast (bs ++ [b]) = unmarked bs ++ [⟨b, true⟩] := by
  simp [withLast, unmarked]

/-- The bytes before a nonempty output's last byte are not marked (R57). -/
theorem withLast_append {bs cs : List Byte} (h : cs ≠ []) : withLast (bs ++ cs) = unmarked bs ++ withLast cs := by
  rcases List.eq_nil_or_concat' cs with rfl | ⟨init, b, rfl⟩
  · exact absurd rfl h
  · rw [← List.append_assoc, withLast_concat, withLast_concat]
    simp [unmarked]

/-- The frame with its final CRC byte apart. -/
theorem frame_eq_concat (tag data : List Byte) :
    frame tag data = (be4 (BitVec.ofNat 32 data.length) ++ tag ++ data ++ [be4Byte (crc32 (tag ++ data)) 0,
      be4Byte (crc32 (tag ++ data)) 1, be4Byte (crc32 (tag ++ data)) 2]) ++ [be4Byte (crc32 (tag ++ data)) 3] := by
  rw [frame, List.append_assoc _ [_, _, _]]
  rfl

/-- A frame that ends the command's output. -/
theorem frameOut_true (tag data : List Byte) : frameOut tag data true = withLast (frame tag data) := by
  rw [frame_eq_concat, withLast_concat]
  simp [frameOut, unmarked]

/-- A frame inside the command's output. -/
theorem frameOut_false (tag data : List Byte) : frameOut tag data false = unmarked (frame tag data) := by
  rw [frame_eq_concat]
  simp [frameOut, unmarked]

theorem frame_ne_nil (tag data : List Byte) : frame tag data ≠ [] :=
  List.ne_nil_of_length_pos (by rw [frame_length]; omega)

/-! ## A streaming engine -/

/-- The engine after emitting `bs`, with the accumulator at `c` and `ys` still to be done. -/
def streamed (ys : List EngineEvent) (c : Word) (bs : List OutByte) (s : State) : State :=
  setPending ys (setCrc c (s.setOut (s.out ++ bs)))

theorem streamed_nil {s : State} {ys : List EngineEvent} (h : s.engine.pending = ys) :
    streamed ys s.engine.crc [] s = s := by
  subst h
  simp only [streamed, List.append_nil]
  rfl

theorem streamed_streamed (ys zs : List EngineEvent) (c d : Word) (bs cs : List OutByte) (s : State) :
    streamed zs d cs (streamed ys c bs s) = streamed zs d (bs ++ cs) s := by
  rw [streamed, streamed, streamed, ← List.append_assoc]
  rfl

theorem setPending_setCrc_streamed (ys zs : List EngineEvent) (c d : Word) (bs : List OutByte) (s : State) :
    setPending zs (setCrc d (streamed ys c bs s)) = streamed zs d bs s := rfl

/-- A fresh accumulator takes in a stretch of bytes (R101). -/
theorem drain_streamed_crc {s : State} {srcs : List ByteSource} {ys : List EngineEvent} {c : Word} {bs : List OutByte}
    {data : List Byte} (hb : sourceBytes s.mem srcs = some data) :
    drain (streamed (.crcInit :: (srcs.map .crcFold ++ ys)) c bs s) = drain (streamed ys (~~~(crc32 data)) bs s) := by
  have hinit := drain_crcInit (s := streamed (.crcInit :: (srcs.map .crcFold ++ ys)) c bs s) rfl
  have hfolds := drain_crcFolds (s := streamed (srcs.map .crcFold ++ ys) crcStart bs s) rfl hb
  rw [hinit, setPending_setCrc_streamed, hfolds, setPending_setCrc_streamed, crc32, BitVec.not_not]
  rfl

section Streaming

variable {s : State} (hready : s.consumerReady = true) {ys : List EngineEvent} {c : Word} {bs : List OutByte}

include hready

theorem drain_streamed_consts (cs : List Byte) :
    drain (streamed ((consts cs).map (.emit · false) ++ ys) c bs s) = drain (streamed ys c (bs ++ unmarked cs) s) := by
  have hemits := drain_emits (s := streamed ((consts cs).map (.emit · false) ++ ys) c bs s) (fold := false) hready rfl
    (sourceBytes_consts _ cs)
  rw [hemits, ← streamed_streamed _ ys c c]
  rfl

theorem drain_streamed_frame {tag data : List ByteSource} {last : Bool} {tb db : List Byte}
    (ht : sourceBytes s.mem tag = some tb) (hd : sourceBytes s.mem data = some db) :
    drain (streamed (frameEvents tag data last ++ ys) c bs s) =
      drain (streamed ys (~~~(crc32 (tb ++ db))) (bs ++ frameOut tb db last) s) := by
  rw [drain_frame (s := streamed (frameEvents tag data last ++ ys) c bs s) hready rfl ht hd, crc32, BitVec.not_not,
    ← streamed_streamed _ ys c]
  rfl

end Streaming

theorem drain_streamed_complete (crc : Bool) (x c : Word) (bs : List OutByte) (s : State) :
    drain (streamed [.complete crc x] c bs s) =
      .next (complete (if crc then some (~~~c) else none) x (streamed [] c bs s)) :=
  drain_complete (s := streamed [.complete crc x] c bs s) rfl

/-- The completion of a command that has passed its checks and has emitted `bs`, as a record. -/
theorem complete_streamed (i : Instr) (o : Option Word) (x c : Word) (bs : List OutByte) (s : State) :
    complete o x (streamed [] c bs (loaded i s)) = { s with
      out := s.out ++ bs
      crcResult := o.getD s.crcResult
      xferCount := x
      status := { s.status with done := true }
      engine := { s.engine with phase := .idle, validated := false, pending := [], before := [], crc := c } } := by
  simp only [complete_eq, engineIdle, streamed, loaded, setPending, setCrc, State.setEngine, State.setOut]

/-! ## The three results -/

/-- Settles O18: NOP has no check to fail, and its one event is its completion. -/
theorem nopCompletes : Obligations.NopCompletes := by
  intro s
  rw [exec_passes (i := .nop) rfl, drain_complete (s := loaded .nop s) rfl]
  rfl

theorem not_outsideMem {s : State} {a : Word} {n : Nat} (h : n = 0 ∨ a.toNat + n ≤ s.memSize) : ¬ OutsideMem s a n := by
  rintro ⟨hne, hlt⟩
  omega

/-- A range register's word is 0 exactly when the range is empty. -/
theorem not_outsideMem_word {s : State} {a n : Word} (h : n = 0#32 ∨ a.toNat + n.toNat ≤ s.memSize) :
    ¬ OutsideMem s a n.toNat :=
  not_outsideMem (h.imp_left fun hn => by rw [hn]; rfl)

/-- Settles O19: the accumulator starts, takes in the range's bytes and is complemented. -/
theorem crcResultIsTheCrcOfTheRange : Obligations.CrcResultIsTheCrcOfTheRange := by
  intro s data hrange hdata
  have hpass : raises .crc s = none := raises_crc_eq_none_iff.2 (not_outsideMem_word hrange)
  have hpending : (loaded .crc s).engine.pending =
      .crcInit :: ((cells s.regs.srcAddr.toNat s.regs.srcLen.toNat).map .crcFold ++ [.complete true 0#32]) := rfl
  rw [exec_passes hpass, ← streamed_nil hpending,
    drain_streamed_crc (s := loaded .crc s) ((sourceBytes_cells ..).trans hdata), drain_streamed_complete, if_pos rfl,
    BitVec.not_not, complete_streamed, Option.getD_some, List.append_nil]

/-- Settles O20: the events are those of one streamed frame, then the completion with the frame's CRC. -/
theorem chunkEmitsTheFrame : Obligations.ChunkEmitsTheFrame := by
  intro s tag data hready htagLen htagRange hrange htag hdata
  have hpass : raises .chunk s = none :=
    raises_chunk_eq_none_iff.2 ⟨htagLen, not_outsideMem (.inr htagRange), not_outsideMem_word hrange⟩
  have hlen : BitVec.ofNat 32 data.length = s.regs.srcLen := by
    rw [memRead_length hdata, BitVec.ofNat_toNat, BitVec.setWidth_eq]
  have hxfer : BitVec.ofNat 32 (12 + s.regs.srcLen.toNat) = 12#32 + s.regs.srcLen := by
    rw [BitVec.ofNat_add, BitVec.ofNat_toNat, BitVec.setWidth_eq]
  have hpending : (loaded .chunk s).engine.pending =
      frameEvents (cells s.regs.tagAddr.toNat 4) (cells s.regs.srcAddr.toNat s.regs.srcLen.toNat) true ++
        [.complete true (12#32 + s.regs.srcLen)] := rfl
  rw [exec_passes hpass, ← streamed_nil hpending,
    drain_streamed_frame (s := loaded .chunk s) hready ((sourceBytes_cells ..).trans htag)
      ((sourceBytes_cells ..).trans hdata),
    drain_streamed_complete, if_pos rfl, BitVec.not_not, complete_streamed,
    Option.getD_some, List.nil_append, frameOut_true, frame, hlen, hxfer]

end Sys2Proof.Machine

/-! # Proofs: the result of SCANLINE (42_scanline R120, R123) -/

namespace Sys2Proof.Machine

/-! ## The layout's bytes, from the source -/

/-- Byte `k` of the layout is what its source gives, the image standing in the source range (R120). -/
theorem sourceByte_scanSource {r : Regs} {m : Memory} {p : List Byte} {k : Nat} (hlen : PixelLenExact r)
    (hp : memRead m r.srcAddr.toNat r.srcLen.toNat = some p) (hk : k < scanLen r) :
    sourceByte m (scanSource r.srcAddr.toNat r.width.toNat k) = (scan p r.width.toNat r.height.toNat)[k]? := by
  have hplen : p.length = r.width.toNat * r.height.toNat * 3 := (memRead_length hp).trans hlen
  rw [scanLen_eq hlen] at hk
  rw [scan_getElem? hplen hk, scanSource]
  split
  next => rfl
  next hpix => rw [Nat.add_assoc, sourceByte, memRead_get hp ((pixelOffset_lt hk hpix).trans_eq hlen.symm)]

theorem sourceBytes_eq_some_iff {m : Memory} {srcs : List ByteSource} {bs : List Byte} :
    sourceBytes m srcs = some bs ↔ srcs.map (sourceByte m) = bs.map some := by
  induction srcs generalizing bs with
  | nil => cases bs <;> simp [sourceBytes]
  | cons src rest ih =>
    constructor
    · intro h
      obtain ⟨b, cs, hb, hcs, rfl⟩ := sourceBytes_cons h
      rw [List.map_cons, List.map_cons, hb, ih.1 hcs]
    · intro h
      cases bs with
      | nil => cases h
      | cons b cs =>
        rw [List.map_cons, List.map_cons, List.cons.injEq] at h
        rw [sourceBytes, h.1, ih.2 h.2]

/-- The sources of the layout give the layout (R120). -/
theorem sourceBytes_scanSources {r : Regs} {m : Memory} {p : List Byte} (hlen : PixelLenExact r)
    (hp : memRead m r.srcAddr.toNat r.srcLen.toNat = some p) :
    sourceBytes m (scanSources r) = some (scan p r.width.toNat r.height.toNat) := by
  have hscan : (scan p r.width.toNat r.height.toNat).length = scanLen r := by
    rw [scan_length ((memRead_length hp).trans hlen), scanLen_eq hlen]
  refine sourceBytes_eq_some_iff.2 (List.ext_getElem (by simp [scanSources, hscan]) fun k hk hk' => ?_)
  have hlt : k < (scan p r.width.toNat r.height.toNat).length := by rwa [List.length_map] at hk'
  simp only [scanSources, List.getElem_map, List.getElem_range]
  rw [sourceByte_scanSource hlen hp (hscan ▸ hlt), List.getElem?_eq_getElem hlt]

/-- Sources that read no changed cell give the same bytes. -/
theorem sourceBytes_congr {m m' : Memory} {srcs : List ByteSource}
    (h : ∀ x, .cell x ∈ srcs → memGet m' x = memGet m x) : sourceBytes m' srcs = sourceBytes m srcs := by
  induction srcs with
  | nil => rfl
  | cons src rest ih =>
    have hsrc : sourceByte m' src = sourceByte m src := by
      cases src with
      | const b => rfl
      | cell x => exact h x List.mem_cons_self
    rw [sourceBytes, sourceBytes, hsrc, ih fun x hx => h x (List.mem_cons_of_mem _ hx)]

/-! ## A stretch of stores -/

/-- `MemWrite(a, bs)` (R12): bytes in ascending cells from `a` on. -/
def memPutAll (m : Memory) (a : Nat) : List Byte → Memory
  | [] => m
  | b :: bs => memPutAll (memPut m a b) (a + 1) bs

theorem memGet_memPutAll_outside {m : Memory} {a x : Nat} {bs : List Byte} (h : x < a ∨ a + bs.length ≤ x) :
    memGet (memPutAll m a bs) x = memGet m x := by
  induction bs generalizing m a with
  | nil => rfl
  | cons b bs ih =>
    rw [List.length_cons] at h
    rw [memPutAll, ih (by omega), memGet_memPut_other _ _ (by omega)]

theorem memGet_memPutAll {m : Memory} {a k : Nat} {bs : List Byte} (hk : k < bs.length) :
    memGet (memPutAll m a bs) (a + k) = bs[k]? := by
  induction bs generalizing m a k with
  | nil => cases hk
  | cons b bs ih =>
    rw [memPutAll]
    cases k with
    | zero => rw [memGet_memPutAll_outside (by omega), Nat.add_zero, memGet_memPut_same, List.getElem?_cons_zero]
    | succ k =>
      rw [List.getElem?_cons_succ, ← ih (m := memPut m a b) (a := a + 1) (Nat.lt_of_succ_lt_succ hk)]
      congr 1
      omega

/-- The stores of some sources' bytes in ascending cells from `a` on. -/
def storesFrom (a : Nat) : List ByteSource → List EngineEvent
  | [] => []
  | src :: srcs => .store a src :: storesFrom (a + 1) srcs

theorem map_range_store (a n : Nat) (f : Nat → ByteSource) :
    ((List.range n).map fun k => EngineEvent.store (a + k) (f k)) = storesFrom a ((List.range n).map f) := by
  induction n generalizing a f with
  | zero => rfl
  | succ n ih =>
    simp only [List.range_succ_eq_map, List.map_cons, List.map_map, Function.comp_def, storesFrom, Nat.add_zero]
    rw [← ih (a + 1) (fun k => f k.succ)]
    simp only [Nat.succ_eq_add_one, Nat.add_assoc, Nat.add_comm 1]

/-- SCANLINE stores its layout's sources one after the other (R123). -/
theorem scanlineEvents_eq (r : Regs) :
    scanlineEvents r =
      storesFrom r.dstAddr.toNat (scanSources r) ++ [.complete false (BitVec.ofNat 32 (scanLen r))] := by
  rw [scanlineEvents, map_range_store, scanSources]

/-- A stretch of stores whose sources lie outside the cells that it writes: it writes what the sources held
before it. -/
theorem drain_stores {srcs : List ByteSource} {a : Nat} {ys : List EngineEvent} {bs : List Byte} {s : State}
    (hp : s.engine.pending = storesFrom a srcs ++ ys) (hb : sourceBytes s.mem srcs = some bs)
    (hout : ∀ x, .cell x ∈ srcs → x < a ∨ a + srcs.length ≤ x) :
    drain s = drain (setPending ys (s.setMem (memPutAll s.mem a bs))) := by
  induction srcs generalizing a bs s with
  | nil =>
    cases hb
    exact congrArg drain (setPending_self hp).symm
  | cons src srcs ih =>
    obtain ⟨b, cs, hsrc, hcs, rfl⟩ := sourceBytes_cons hb
    have step : perform (.store a src) (storesFrom (a + 1) srcs ++ ys) s = .next _ := withByte_some hsrc
    have houtside : ∀ x, .cell x ∈ srcs → x < a ∨ a + (srcs.length + 1) ≤ x :=
      fun x hx => hout x (List.mem_cons_of_mem _ hx)
    have hrest : sourceBytes (memPut s.mem a b) srcs = some cs :=
      (sourceBytes_congr fun x hx => memGet_memPut_other _ _ (by have := houtside x hx; omega)).trans hcs
    rw [drain_step hp rfl step rfl,
      ih (s := setPending (storesFrom (a + 1) srcs ++ ys) (s.setMem (memPut s.mem a b))) rfl hrest
        (fun x hx => by have := houtside x hx; omega)]
    rfl

/-- The completion of a command that has passed its checks and has left MEM as `m`, as a record. -/
theorem complete_stored (i : Instr) (ys : List EngineEvent) (x : Word) (m : Memory) (s : State) :
    complete none x (setPending ys ((loaded i s).setMem m)) = { s with
      mem := m
      xferCount := x
      status := { s.status with done := true }
      engine := { s.engine with phase := .idle, validated := false, pending := [], before := [] } } := by
  simp only [complete_eq, engineIdle, loaded, setPending, State.setEngine, State.setMem, Option.getD_none]

/-- A SCANLINE that passes its checks writes the layout (R123). -/
theorem exec_scanline_passes {s : State} {p : List Byte} (hpass : raises .scanline s = none)
    (hp : memRead s.mem s.regs.srcAddr.toNat s.regs.srcLen.toNat = some p) :
    exec .scanline s = .next { s with
      mem := memPutAll s.mem s.regs.dstAddr.toNat (scan p s.regs.width.toNat s.regs.height.toNat)
      xferCount := BitVec.ofNat 32 (scanLen s.regs)
      status := { s.status with done := true }
      engine := { s.engine with phase := .idle, validated := false, pending := [], before := [] } } := by
  obtain ⟨⟨-, hlen, -⟩, -, hover⟩ := (raises_image_eq_none_iff (.inl rfl)).1 hpass
  have hsources : (scanSources s.regs).length = scanLen s.regs := by simp [scanSources]
  have houtside : ∀ x, .cell x ∈ scanSources s.regs →
      x < s.regs.dstAddr.toNat ∨ s.regs.dstAddr.toNat + (scanSources s.regs).length ≤ x := by
    intro x hx
    have hin := (cell_mem_scanSources hlen).1 hx
    simp only [inRange, Bool.and_eq_true, decide_eq_true_eq] at hin
    simp only [true_and, ScanlineOverlaps] at hover
    omega
  rw [exec_passes hpass,
    drain_stores (s := loaded .scanline s) (scanlineEvents_eq s.regs) (sourceBytes_scanSources hlen hp) houtside,
    drain_complete (setPending_engine_pending ..), if_neg Bool.false_ne_true, complete_stored, loaded_mem]

/-- Settles O21: the new memory is the old one with the layout put in the destination. -/
theorem scanlineWritesTheLayout : Obligations.ScanlineWritesTheLayout := by
  intro s p hw hh hlen hover hsrc hdst hdisjoint hp
  have hpass : raises .scanline s = none := by
    refine (raises_image_eq_none_iff (.inl rfl)).2 ⟨⟨?_, hlen, hover⟩, ?_, ?_⟩
    · exact not_or.2 ⟨hw, hh⟩
    · exact not_or.2 ⟨not_outsideMem (.inr hsrc), fun h => not_outsideMem (.inr hdst) h.2⟩
    · rintro ⟨-, -, -, hlow, hhigh⟩
      rw [scanLen] at hlow
      omega
  have hscan : (scan p s.regs.width.toNat s.regs.height.toNat).length = s.regs.height.toNat + s.regs.srcLen.toNat := by
    rw [scan_length ((memRead_length hp).trans hlen)]
    exact (scanLen_eq hlen).symm
  refine ⟨_, exec_scanline_passes hpass hp, fun k hk => ?_, fun a ha => ?_⟩
  · exact memGet_memPutAll (hscan.symm ▸ hk)
  · exact memGet_memPutAll_outside (hscan.symm ▸ ha)

end Sys2Proof.Machine

/-! # Proofs: the result of ENCODE (43_encode R132, R133, R138) -/

namespace Sys2Proof.Machine

/-- An ENCODE that passes its checks emits the stream (R133); its last byte is the last byte of the IEND frame. -/
theorem exec_encode_passes {s : State} {p : List Byte} (hready : s.consumerReady = true)
    (hpass : raises .encode s = none) (hp : memRead s.mem s.regs.srcAddr.toNat s.regs.srcLen.toNat = some p) :
    ∃ c : Word, exec .encode s = .next { s with
      out := s.out ++ withLast (png p s.regs.width s.regs.height)
      xferCount := BitVec.ofNat 32 (57 + scanLen s.regs)
      status := { s.status with done := true }
      engine := { s.engine with phase := .idle, validated := false, pending := [], before := [], crc := c } } := by
  obtain ⟨⟨-, hlen, -⟩, -⟩ := (raises_image_eq_none_iff (.inr rfl)).1 hpass
  have hpending : (loaded .encode s).engine.pending =
      (consts pngSignature).map (.emit · false) ++
        (frameEvents (consts tagIHDR) (consts (ihdrPayload s.regs.width s.regs.height)) false ++
          (frameEvents (consts tagIDAT) (scanSources s.regs) false ++
            (frameEvents (consts tagIEND) [] true ++ [.complete false (BitVec.ofNat 32 (57 + scanLen s.regs))]))) := by
    simp only [loaded_pending, eventsOf, encodeEvents, List.append_assoc]
  have hready' : (loaded .encode s).consumerReady = true := hready
  have hout : unmarked pngSignature ++ frameOut tagIHDR (ihdrPayload s.regs.width s.regs.height) false ++
      frameOut tagIDAT (scan p s.regs.width.toNat s.regs.height.toNat) false ++ frameOut tagIEND [] true =
      withLast (png p s.regs.width s.regs.height) := by
    rw [png, withLast_append (frame_ne_nil _ _), frameOut_false, frameOut_false, frameOut_true]
    simp only [unmarked, List.map_append]
  refine ⟨~~~(crc32 (tagIEND ++ [])), ?_⟩
  rw [exec_passes hpass, ← streamed_nil hpending, drain_streamed_consts hready',
    drain_streamed_frame hready' (sourceBytes_consts ..) (sourceBytes_consts ..),
    drain_streamed_frame hready' (sourceBytes_consts ..) (sourceBytes_scanSources hlen hp),
    drain_streamed_frame hready' (sourceBytes_consts ..) rfl, drain_streamed_complete, List.nil_append, hout,
    if_neg Bool.false_ne_true, complete_streamed, Option.getD_none]

/-- Settles O22: the checks of R133 pass, and the stream is followed by the completion. -/
theorem encodeEmitsThePngStream : Obligations.EncodeEmitsThePngStream := by
  intro s p hready hw hh hlen hover hsrc hp
  have hpass : raises .encode s = none := by
    refine (raises_image_eq_none_iff (.inr rfl)).2 ⟨⟨not_or.2 ⟨hw, hh⟩, hlen, hover⟩, ?_, fun h => nomatch h.1⟩
    exact not_or.2 ⟨not_outsideMem (.inr hsrc), fun h => nomatch h.1⟩
  exact exec_encode_passes hready hpass hp

/-- Settles O35: both runs append the stream of the same image, which has at least 57 bytes. -/
theorem encodeOutputDependsOnlyOnTheImage : Obligations.EncodeOutputDependsOnlyOnTheImage := by
  intro s s' t t' p hready hready' hw hh hpass hpass' hp hp' ht ht'
  obtain ⟨c, hexec⟩ := exec_encode_passes hready hpass hp
  obtain ⟨c', hexec'⟩ := exec_encode_passes hready' hpass' hp'
  rw [hexec] at ht
  rw [hexec'] at ht'
  refine ⟨withLast (png p s.regs.width s.regs.height), ?_, ?_, ?_⟩
  · rw [png, withLast_append (frame_ne_nil _ _), ← frameOut_true]
    simp [frameOut]
  · exact Host.Outcome.next.inj ht ▸ rfl
  · rw [hw, hh]
    exact Host.Outcome.next.inj ht' ▸ rfl

end Sys2Proof.Machine

/-! # Proofs: a command that waits or that reads an unwritten cell (20_memory R51, R58; 93 U1) -/

namespace Sys2Proof.Machine

/-- CHUNK and ENCODE begin with an OUT transfer (R110, R130). -/
theorem eventsOf_head_isEmission {i : Instr} (r : Regs) (hi : i = .chunk ∨ i = .encode) :
    ∃ ev more, eventsOf i r = ev :: more ∧ isEmission ev = true := by
  rcases hi with rfl | rfl
  · exact ⟨_, _, rfl, rfl⟩
  · exact ⟨_, _, rfl, rfl⟩

/-- Settles O23: the loaded command's first event is an OUT transfer, which waits. -/
theorem emittingCommandsWaitForTheConsumer : Obligations.EmittingCommandsWaitForTheConsumer := by
  intro s i hready hi hrun _ _ hpass
  obtain ⟨ev, more, hpending, hev⟩ := eventsOf_head_isEmission s.regs hi
  have hbusy : (loaded i s).busy = true := busy_eq_true_of_run (s := loaded i s) hrun
  refine ⟨loaded i s, ?_, hbusy, ?_, rfl⟩
  · rw [exec_passes hpass]
    exact drain_waits (s := loaded i s) hready hpending hev
  · rw [offers, hbusy, loaded_pending, hpending]
    simpa [loaded] using hev

/-! ## Unwritten cells -/

/-- MemRead of a range is stuck at an unwritten cell of it (R51). -/
theorem exists_unwritten_of_memRead_none {m : Memory} {a n : Nat} (h : memRead m a n = none) :
    ∃ x, inRange (a, n) x = true ∧ memGet m x = none := by
  induction n generalizing a with
  | zero => cases h
  | succ n ih =>
    cases hget : memGet m a with
    | none => exact ⟨a, by simp [inRange], hget⟩
    | some b =>
      cases hread : memRead m (a + 1) n with
      | none =>
        obtain ⟨x, hx, hnone⟩ := ih hread
        simp only [inRange, Bool.and_eq_true, decide_eq_true_eq] at hx ⊢
        exact ⟨x, ⟨by omega, by omega⟩, hnone⟩
      | some bs =>
        rw [memRead, hget, hread] at h
        cases h

/-- An event that goes on has found its byte. -/
theorem perform_source {ev : EngineEvent} {rest : List EngineEvent} {s t : State} {a : Nat}
    (h : perform ev rest s = .next t) (hsrc : eventSource ev = some (.cell a)) : memGet s.mem a ≠ none := by
  have hread : ∀ src b, eventSource ev = some src → sourceByte s.mem src = some b → memGet s.mem a ≠ none := by
    intro src b hev hb
    rw [hsrc, Option.some.injEq] at hev
    subst hev
    exact fun hnone => by rw [sourceByte, hnone] at hb; cases hb
  rcases perform_cases h with ⟨rfl, -⟩ | ⟨src, b, rfl, hb, -⟩ | ⟨src, b, fold, rfl, hb, -⟩ | ⟨k, last, rfl, -⟩ |
    ⟨dst, src, b, rfl, hb, -⟩ | ⟨crc, x, rfl, -⟩
  · cases hsrc
  · exact hread src b rfl hb
  · exact hread src b rfl hb
  · cases hsrc
  · exact hread src b rfl hb
  · cases hsrc

theorem withByte_fault {src : ByteSource} {s : State} {k : Byte → State} {f : Fault} (h : withByte src s k = .fault f) :
    ∃ a, src = .cell a ∧ memGet s.mem a = none ∧ f = .unwrittenRead a := by
  rw [withByte] at h
  split at h
  next => cases h
  next hnone =>
    cases src with
    | const b => cases hnone
    | cell a => exact ⟨a, rfl, hnone, (Host.Outcome.fault.inj h).symm⟩

/-- The only fault of an event is that its cell is unwritten. -/
theorem perform_fault {ev : EngineEvent} {rest : List EngineEvent} {s : State} {f : Fault}
    (h : perform ev rest s = .fault f) :
    ∃ a, eventSource ev = some (.cell a) ∧ memGet s.mem a = none ∧ f = .unwrittenRead a := by
  cases ev with
  | crcFold src | emit src fold | store dst src =>
    obtain ⟨a, rfl, hnone, hf⟩ := withByte_fault h
    exact ⟨a, rfl, hnone, hf⟩
  | crcInit | emitCrc k last | complete crc x => cases h

theorem sourcesOf_cons {ev : EngineEvent} {rest : List EngineEvent} {src : ByteSource} :
    src ∈ sourcesOf (ev :: rest) ↔ eventSource ev = some src ∨ src ∈ sourcesOf rest := by
  simp [sourcesOf, List.mem_filterMap]

/-- Events that do not write what they read, one of whose cells is unwritten, fault at such a cell. -/
theorem performAll_unwritten {evs : List EngineEvent} {s : State} (hready : s.consumerReady = true)
    (hdisjoint : ∀ a, .cell a ∈ sourcesOf evs → a ∉ targetsOf evs)
    (hunwritten : ∃ a, .cell a ∈ sourcesOf evs ∧ memGet s.mem a = none) :
    ∃ a, performAll evs s = .fault (.unwrittenRead a) ∧ .cell a ∈ sourcesOf evs ∧ memGet s.mem a = none := by
  induction evs generalizing s with
  | nil =>
    obtain ⟨a, hmem, -⟩ := hunwritten
    cases hmem
  | cons ev rest ih =>
    have hgo : (isEmission ev && !s.consumerReady) = false := by simp [hready]
    cases hp : perform ev rest s with
    | refused r => exact absurd hp (perform_not_refused ev rest s r)
    | fault f =>
      obtain ⟨a, hsrc, hnone, rfl⟩ := perform_fault hp
      refine ⟨a, ?_, sourcesOf_cons.2 (.inl hsrc), hnone⟩
      rw [performAll, hgo, hp]
      rfl
    | next t =>
      have hkept : ∀ a, .cell a ∈ sourcesOf (ev :: rest) → memGet t.mem a = memGet s.mem a := fun a ha =>
        perform_memGet (fun htarget => hdisjoint a ha (List.mem_filterMap.2 ⟨ev, List.mem_cons_self, htarget⟩)) hp
      have hrest : ∀ {a}, .cell a ∈ sourcesOf rest → .cell a ∈ sourcesOf (ev :: rest) :=
        fun ha => sourcesOf_cons.2 (.inr ha)
      have htargets : targetsOf rest ⊆ targetsOf (ev :: rest) :=
        ((List.sublist_cons_self ev rest).filterMap eventTarget).subset
      obtain ⟨a, ha, hnone⟩ := hunwritten
      have harest : .cell a ∈ sourcesOf rest :=
        (sourcesOf_cons.1 ha).resolve_left fun hsrc => perform_source hp hsrc hnone
      have hready' : t.consumerReady = true := (perform_keeps hp).ready.trans hready
      obtain ⟨x, hfault, hx, hxnone⟩ := ih hready'
        (fun x hx htarget => hdisjoint x (hrest hx) (htargets htarget))
        ⟨a, harest, (hkept a ha).trans hnone⟩
      exact ⟨x, (performAll_cons hgo hp).trans hfault, hrest hx, (hkept x (hrest hx)).symm.trans hxnone⟩

/-- A command that passes its checks writes no cell that it reads (R54, R123). -/
theorem sourcesOf_disjoint_targetsOf {i : Instr} {s : State} {a : Nat} (hpass : raises i s = none)
    (ha : .cell a ∈ sourcesOf (eventsOf i s.regs)) : a ∉ targetsOf (eventsOf i s.regs) := by
  by_cases hi : i = .scanline
  · subst hi
    intro htarget
    obtain ⟨-, -, hoverlap⟩ := (raises_image_eq_none_iff (.inl rfl)).1 hpass
    have hread := (cell_mem_sourcesOf_eventsOf hpass).1 ha
    have hwrite := mem_targetsOf_eventsOf.1 htarget
    simp only [readRanges, writeRanges, List.any_cons, List.any_nil, Bool.or_false, inRange, Bool.and_eq_true,
      decide_eq_true_eq] at hread hwrite
    exact hoverlap ⟨rfl, by omega, by omega, by omega, by omega⟩
  · rw [targetsOf_eventsOf s.regs hi]
    exact List.not_mem_nil

/-- Settles O27: the unwritten cell of the range is read by one of the command's events, so the run faults, at an
unwritten cell that it reads. -/
theorem readOfAnUnwrittenCellFaults : Obligations.ReadOfAnUnwrittenCellFaults := by
  intro s i r hready hpass hr hnone
  obtain ⟨x, hin, hx⟩ := exists_unwritten_of_memRead_none hnone
  have hsource : .cell x ∈ sourcesOf (eventsOf i s.regs) :=
    (cell_mem_sourcesOf_eventsOf hpass).2 (List.any_eq_true.2 ⟨r, hr, hin⟩)
  obtain ⟨a, hfault, ha, hanone⟩ := performAll_unwritten (s := loaded i s) hready
    (fun _ ha => sourcesOf_disjoint_targetsOf hpass ha) ⟨x, hsource, hx⟩
  exact ⟨a, (exec_passes hpass).trans hfault, hanone, (cell_mem_sourcesOf_eventsOf hpass).1 ha⟩

end Sys2Proof.Machine

/-! # Proofs: the host's MEM accesses (20_memory R52; 70_reset R177, R178) -/

namespace Sys2Proof.Machine

/-- A host write of a byte (R52). -/
theorem step_memWrite {s : State} {addr : Word} {b : Byte} {rest : List Event}
    (h : s.inputs = .memWrite addr b :: rest) : step s = hostMemWrite addr b (s.setInputs rest) := by
  simp only [step, advance, h, performEvent]

/-- A host read of a byte (R52). -/
theorem step_memRead {s : State} {addr : Word} {rest : List Event} (h : s.inputs = .memRead addr :: rest) :
    step s = hostMemRead addr (s.setInputs rest) := by
  simp only [step, advance, h, performEvent]

section Inside

variable {s : State} {addr : Word}

theorem hostMemWrite_outside (b : Byte) (h : s.memSize ≤ addr.toNat) : hostMemWrite addr b s = .next s := by
  simp only [hostMemWrite, if_pos h]

theorem hostMemRead_outside (h : s.memSize ≤ addr.toNat) : hostMemRead addr s = .next (hostGets (.byte 0#8) s) := by
  simp only [hostMemRead, if_pos h]

variable (h : addr.toNat < s.memSize)

include h

theorem hostMemWrite_free (b : Byte) (hfree : ((runningRanges s).any fun q => inRange q addr.toNat) = false) :
    hostMemWrite addr b s = .next (s.setMem (memPut s.mem addr.toNat b)) := by
  simp only [hostMemWrite, if_neg (Nat.not_le.2 h), hfree, if_neg Bool.false_ne_true]

theorem hostMemWrite_hazard (b : Byte) (hrange : ((runningRanges s).any fun q => inRange q addr.toNat) = true) :
    hostMemWrite addr b s = .fault (.hostWriteHazard addr.toNat) := by
  simp only [hostMemWrite, if_neg (Nat.not_le.2 h), hrange, if_true]

theorem hostMemRead_free (hfree : ((runningWrites s).any fun q => inRange q addr.toNat) = false) :
    hostMemRead addr s = hostGetsCell addr.toNat (memGet s.mem addr.toNat) s := by
  simp only [hostMemRead, if_neg (Nat.not_le.2 h), hfree, if_neg Bool.false_ne_true]

theorem hostMemRead_destination (hrange : ((runningWrites s).any fun q => inRange q addr.toNat) = true) :
    hostMemRead addr s =
      hostGetsCell addr.toNat (if Config.dstReadNew s.draws then scanlineNewByte s addr.toNat else oldByte s addr.toNat)
        (s.setDraws (s.draws + 1)) := by
  simp only [hostMemRead, if_neg (Nat.not_le.2 h), hrange, if_true]

end Inside

/-- Settles O41: the write is one `memPut`, which the laws of MEM describe. -/
theorem hostMemWriteStoresTheByte : Obligations.HostMemWriteStoresTheByte := by
  intro s addr b rest hin hlt hfree
  refine ⟨memPut s.mem addr.toNat b, ?_, memGet_memPut_same .., fun a ha => memGet_memPut_other _ _ ha⟩
  rw [step_memWrite hin]
  exact hostMemWrite_free (s := s.setInputs rest) hlt b hfree

/-- Settles O42: the read gives the cell's byte, if it has one. -/
theorem hostMemReadReturnsTheByte : Obligations.HostMemReadReturnsTheByte := by
  intro s addr rest hin hlt hfree
  have hread : step s = hostGetsCell addr.toNat (memGet s.mem addr.toNat) (s.setInputs rest) := by
    rw [step_memRead hin]
    exact hostMemRead_free (s := s.setInputs rest) hlt hfree
  constructor
  · intro b hb
    rw [hread, hb]
    rfl
  · intro hnone
    rw [hread, hnone]
    rfl

/-- Settles O43: neither access reaches MEM. -/
theorem hostMemAccessAboveMemSize : Obligations.HostMemAccessAboveMemSize := by
  intro s addr b rest h
  constructor
  · intro hin
    rw [step_memWrite hin]
    exact hostMemWrite_outside (s := s.setInputs rest) b h
  · intro hin
    rw [step_memRead hin]
    exact hostMemRead_outside (s := s.setInputs rest) h

/-! ## Under a running command -/

theorem runningCommand_of_op {s : State} {i : Instr} (hrun : s.engine.phase = .run) (hop : decode s.engine.op = .ok i) :
    runningCommand s = some i := by
  rw [runningCommand, busy_eq_true_of_run hrun, hop]
  rfl

theorem runningRanges_of_op {s : State} {i : Instr} (hrun : s.engine.phase = .run) (hop : decode s.engine.op = .ok i) :
    runningRanges s = readRanges i s.regs ++ writeRanges i s.regs := by
  rw [runningRanges, runningCommand_of_op hrun hop]

theorem runningWrites_of_op {s : State} {i : Instr} (hrun : s.engine.phase = .run) (hop : decode s.engine.op = .ok i)
    (hpass : raises i s = none) : runningWrites s = writeRanges i s.regs := by
  simp only [runningWrites, runningCommand_of_op hrun hop, hpass, Option.isNone_none, if_true]

/-- Settles O44: the range is one of those that the running command names. -/
theorem hostWriteUnderACommandFaults : Obligations.HostWriteUnderACommandFaults := by
  intro s addr b rest i r hin hrun hop hlt hr hlow hhigh
  have hmem : r ∈ readRanges i s.regs ++ writeRanges i s.regs := by
    rcases hr with ⟨rfl, rfl⟩ | ⟨rfl, rfl | rfl⟩ | ⟨rfl, rfl | rfl⟩ | ⟨rfl, rfl⟩ <;>
      simp [readRanges, writeRanges, scanLen]
  have hinRange : inRange r addr.toNat = true := by simp [inRange, hlow, hhigh]
  have hrange : ((runningRanges s).any fun q => inRange q addr.toNat) = true := by
    rw [runningRanges_of_op hrun hop]
    exact List.any_eq_true.2 ⟨r, hmem, hinRange⟩
  rw [step_memWrite hin]
  exact hostMemWrite_hazard (s := s.setInputs rest) hlt b hrange

/-- Settles O45: the new value is the layout's byte (R120), the old one that of MEM at the command's start; the free
choice decides between the two. -/
theorem hostReadOfDestinationIsOldOrNew : Obligations.HostReadOfDestinationIsOldOrNew := by
  intro s addr rest p hin hrun hop hpass hp hdst
  obtain ⟨⟨-, hlen, -⟩, -⟩ := (raises_image_eq_none_iff (.inl rfl)).1 hpass
  have hdst' : ((writeRanges .scanline s.regs).any fun q => inRange q addr.toNat) = true := by
    simpa [writeRanges, scanLen] using hdst
  have hoff : addr.toNat - s.regs.dstAddr.toNat < scanLen s.regs := by
    simp only [inRange, Bool.and_eq_true, decide_eq_true_eq] at hdst
    rw [scanLen]
    omega
  have hscan : (scan p s.regs.width.toNat s.regs.height.toNat).length = scanLen s.regs := by
    rw [scan_length ((memRead_length hp).trans hlen), scanLen_eq hlen]
  have hb := List.getElem?_eq_getElem (hscan.symm ▸ hoff)
  have hnew : scanlineNewByte s addr.toNat = _ := (sourceByte_scanSource hlen hp hoff).trans hb
  have hstep : step s = hostGetsCell addr.toNat
      (if Config.dstReadNew s.draws then scanlineNewByte s addr.toNat else oldByte s addr.toNat)
      ((s.setInputs rest).setDraws (s.draws + 1)) := by
    rw [step_memRead hin]
    refine hostMemRead_destination (s := s.setInputs rest) ?_ ?_
    · exact any_inRange_inside hpass (List.subset_append_right ..) hdst'
    · exact (runningWrites_of_op hrun hop hpass).symm ▸ hdst'
  refine ⟨_, hb, ?_⟩
  cases hdraw : Config.dstReadNew s.draws with
  | true =>
    left
    rw [hstep, hdraw, if_pos rfl, hnew]
    rfl
  | false =>
    right
    rw [hstep, hdraw, if_neg Bool.false_ne_true, oldByte]
    cases hold : memGet s.engine.before addr.toNat with
    | some c => exact .inl ⟨c, rfl, rfl⟩
    | none => exact .inr ⟨rfl, rfl⟩

end Sys2Proof.Machine

/-! # Proofs: reset, and what follows it (70_reset R170, R171, R175) -/

namespace Sys2Proof.Machine

/-- Settles O50: the values of `State.reset` as they stand. -/
theorem stateAfterPowerOnReset : Obligations.StateAfterPowerOnReset :=
  ⟨rfl, rfl, rfl, rfl, rfl, rfl, rfl, rfl, rfl, rfl⟩

/-- The destination that a reset erases (R171): a SCANLINE's, and no other command has one. -/
theorem runningDestination_of_scanline {s : State} (hrun : s.engine.phase = .run)
    (hop : decode s.engine.op = .ok .scanline) : runningDestination s = [(s.regs.dstAddr.toNat, scanLen s.regs)] := by
  rw [runningDestination, runningCommand_of_op hrun hop]
  rfl

theorem runningDestination_of_not_scanline {s : State} (hop : decode s.engine.op ≠ .ok .scanline) :
    runningDestination s = [] := by
  rw [runningDestination, runningCommand]
  split
  next i hi =>
    split at hi
    next =>
      split at hi
      next j hj =>
        cases hi
        cases i with
        | scanline => exact absurd hj hop
        | nop | crc | chunk | encode => rfl
      next => cases hi
    next => cases hi
  next => rfl

/-- Settles O52: the registers by `warmReset_registersReset`; MEM by what the running command's destination is. -/
theorem resetDuringACommand : Obligations.ResetDuringACommand := by
  intro s rest hin hrun
  have hreset := warmReset_registersReset (s.setInputs rest)
  refine ⟨warmReset (s.setInputs rest), step_reset hin, rfl, hreset.idle, hreset.pending, fun hop => ?_,
    fun hop a => ?_⟩
  · exact congrArg (eraseRanges s.mem) (runningDestination_of_not_scanline (s := s) hop)
  · have hmem : (warmReset (s.setInputs rest)).mem = memErase s.mem s.regs.dstAddr.toNat (scanLen s.regs) :=
      congrArg (eraseRanges s.mem) (runningDestination_of_scanline (s := s) hrun hop)
    rw [hmem, memGet_memErase]
    exact if_congr (by simp [inRange, scanLen]) rfl rfl

/-- The command word written straight after reset has been started. -/
def startedAfterReset (i : Instr) : State := start (encode i) (State.reset.setInputs [])

/-- The two steps after reset: the CMD write, and the command's meaning. -/
theorem runSteps_afterReset {i : Instr} {t : State} (h : exec i (startedAfterReset i) = .next t) :
    runSteps 2 (State.reset.setInputs [.hostWrite 0x00C#32 (encode i)]) = .next t := by
  refine runSteps_two (step_cmdWrite_idle (rest := []) rfl (by decide) rfl) ?_
  rw [step_nothingScheduled rfl]
  exact (engineRun_started (s := startedAfterReset i) rfl rfl (decode_eq_ok_iff_eq_encode.2 rfl)).trans h

/-- Settles O54: NOP and CRC complete, CRC over the empty range; the other commands fail their first check. -/
theorem commandsStraightAfterReset : Obligations.CommandsStraightAfterReset := by
  intro i
  cases i with
  | nop =>
    exact ⟨_, runSteps_afterReset (nopCompletes _), rfl, rfl, nofun, fun _ => rfl, nofun, nofun⟩
  | crc =>
    exact ⟨_, runSteps_afterReset (crcResultIsTheCrcOfTheRange _ [] (.inl rfl) rfl), rfl, rfl,
      fun _ => ⟨crc32_nil, rfl⟩, nofun, nofun, nofun⟩
  | chunk =>
    have hraises : raises .chunk (startedAfterReset .chunk) = some .badTagLen := by decide
    exact ⟨_, runSteps_afterReset (exec_raises hraises), rfl, rfl, nofun, nofun, fun _ => rfl, nofun⟩
  | scanline =>
    have hraises : raises .scanline (startedAfterReset .scanline) = some .zeroDim := by decide
    exact ⟨_, runSteps_afterReset (exec_raises hraises), rfl, rfl, nofun, nofun, nofun, fun _ => rfl⟩
  | encode =>
    have hraises : raises .encode (startedAfterReset .encode) = some .zeroDim := by decide
    exact ⟨_, runSteps_afterReset (exec_raises hraises), rfl, rfl, nofun, nofun, nofun, fun _ => rfl⟩

end Sys2Proof.Machine

/-! # Proofs: fixed values, and several blocks side by side (40_crc R100; 60_exceptions R166) -/

namespace Sys2Proof.Machine

/-- Settles O16: four entries of the ROM, computed. -/
theorem crcTableCornerValues : Obligations.CrcTableCornerValues := by
  unfold Obligations.CrcTableCornerValues
  decide

/-- Settles O59: the step of block `k` replaces entry `k` of the list and no other. -/
theorem instancesShareNoState : Obligations.InstancesShareNoState := by
  intro k bs s hk
  constructor
  · intro t ht
    have hlt : k < bs.length := (List.getElem?_eq_some_iff.1 hk).1
    have hmove : stepInstance k bs = .next (bs.set k t) := by simp only [stepInstance, hk, ht]
    exact ⟨_, hmove, List.length_set, List.getElem?_set_self hlt, fun j hj => List.getElem?_set_ne hj.symm⟩
  · intro f hf
    simp only [stepInstance, hk, hf]

end Sys2Proof.Machine

/-! # Proofs: a command by its single engine events (44_system R142; 30_encoding R81; 70_reset R183) -/

namespace Sys2Proof.Machine

/-! ## The engine looks at neither the schedule nor the host's record -/

/-- The state with another schedule and another record of the host's reads. -/
def withHostSide (l : List Event) (r : List HostData) (s : State) : State := (s.setInputs l).setHostReads r

theorem perform_setHostReads {ev : EngineEvent} {rest : List EngineEvent} {s t : State} (r : List HostData)
    (h : perform ev rest s = .next t) : perform ev rest (s.setHostReads r) = .next (t.setHostReads r) := by
  rcases perform_cases h with ⟨rfl, rfl⟩ | ⟨src, b, rfl, hb, rfl⟩ | ⟨src, b, fold, rfl, hb, rfl⟩ | ⟨k, last, rfl, rfl⟩ |
    ⟨dst, src, b, rfl, hb, rfl⟩ | ⟨crc, x, rfl, rfl⟩
  · rfl
  · exact withByte_some (s := s.setHostReads r) hb
  · refine (withByte_some (s := s.setHostReads r) hb).trans ?_
    cases fold <;> rfl
  · rfl
  · exact withByte_some (s := s.setHostReads r) hb
  · rfl

theorem perform_withHostSide {ev : EngineEvent} {rest : List EngineEvent} {s t : State} (l : List Event)
    (r : List HostData) (h : perform ev rest s = .next t) :
    perform ev rest (withHostSide l r s) = .next (withHostSide l r t) :=
  perform_setHostReads r (perform_setInputs l h)

theorem beginCommand_withHostSide (cs : List (Bool × InvalidArgument)) (es : List EngineEvent) (l : List Event)
    (r : List HostData) (s : State) :
    beginCommand cs es (withHostSide l r s) = withHostSide l r (beginCommand cs es s) := by
  cases hf : firstFailure cs with
  | some e => rw [beginCommand_raises hf, beginCommand_raises hf]; rfl
  | none => rw [beginCommand_passes hf, beginCommand_passes hf]; rfl

theorem validateEvent_withHostSide (l : List Event) (r : List HostData) (s : State) :
    validateEvent (withHostSide l r s) = withHostSide l r (validateEvent s) := by
  cases hop : decode s.engine.op with
  | ok i =>
    have hvalidate : ∀ t : State, t.engine.op = s.engine.op →
        validateEvent t = beginCommand (checksOf i t.memSize t.regs) (eventsOf i t.regs) t :=
      fun t ht => by simp only [validateEvent, ht, hop]
    rw [hvalidate s rfl, hvalidate (withHostSide l r s) rfl]
    exact beginCommand_withHostSide ..
  | error e =>
    have hvalidate : ∀ t : State, t.engine.op = s.engine.op → validateEvent t = errorComplete .illegalCmd t :=
      fun t ht => by simp only [validateEvent, ht, hop]
    rw [hvalidate s rfl, hvalidate (withHostSide l r s) rfl]
    rfl

theorem pendingEvent_withHostSide {go : Bool} {s t : State} (l : List Event) (r : List HostData)
    (h : pendingEvent go s = .next t) : pendingEvent go (withHostSide l r s) = .next (withHostSide l r t) := by
  have hpending : (withHostSide l r s).engine.pending = s.engine.pending := rfl
  rw [pendingEvent, hpending]
  rw [pendingEvent] at h
  cases hp : s.engine.pending with
  | nil => rw [hp] at h; exact Host.Outcome.next.inj h ▸ rfl
  | cons ev rest =>
    rw [hp] at h
    cases hwait : isEmission ev && !go with
    | true => simp only [hwait, if_true] at h ⊢; exact Host.Outcome.next.inj h ▸ rfl
    | false => simp only [hwait, Bool.false_eq_true, if_false] at h ⊢; exact perform_withHostSide l r h

theorem engineEvent_withHostSide {s t : State} (l : List Event) (r : List HostData) (h : engineEvent s = .next t) :
    engineEvent (withHostSide l r s) = .next (withHostSide l r t) := by
  have hengine : (withHostSide l r s).engine = s.engine := rfl
  rw [engineEvent, hengine]
  rw [engineEvent] at h
  cases hphase : s.engine.phase with
  | idle => rw [hphase] at h; exact Host.Outcome.next.inj h ▸ rfl
  | run =>
    rw [hphase] at h
    cases hval : s.engine.validated with
    | true => simp only [hval, if_true] at h ⊢; exact pendingEvent_withHostSide l r h
    | false =>
      simp only [hval, Bool.false_eq_true, if_false] at h ⊢
      rw [validateEvent_withHostSide, Host.Outcome.next.inj h]

/-! ## A command's run, event by event -/

/-- Single engine events lead from `s`, where a command runs, to `t`, where it has ended; only the last of them changes
STATUS. -/
inductive EngineRunsTo : State → State → Prop
  | last {s t : State} (event : engineEvent s = .next t) (idle : t.engine.phase = .idle)
      (done : t.status.done = true) : EngineRunsTo s t
  | more {s u t : State} (event : engineEvent s = .next u) (status : u.status = s.status) (rest : EngineRunsTo u t) :
      EngineRunsTo s t

/-- The engine's next event when a validated command need not wait. -/
theorem engineEvent_pending {s : State} {ev : EngineEvent} {rest : List EngineEvent} (hrun : s.engine.phase = .run)
    (hval : s.engine.validated = true) (hready : s.consumerReady = true) (hp : s.engine.pending = ev :: rest) :
    engineEvent s = perform ev rest s := by
  simp only [engineEvent, hrun, hval, if_true, pendingEvent, hp, hready, Bool.not_true, Bool.and_false,
    Bool.false_eq_true, if_false]

/-- A list of events that goes on with a ready consumer begins with an event that goes on. -/
theorem performAll_cons_next {ev : EngineEvent} {rest : List EngineEvent} {s t : State}
    (hready : s.consumerReady = true) (h : performAll (ev :: rest) s = .next t) :
    ∃ u, perform ev rest s = .next u ∧ performAll rest u = .next t := by
  have hgo : (isEmission ev && !s.consumerReady) = false := by simp [hready]
  cases hp : perform ev rest s with
  | next u => exact ⟨u, rfl, (performAll_cons hgo hp).symm.trans h⟩
  | fault f => rw [performAll, hgo, hp] at h; cases h
  | refused r => exact absurd hp (perform_not_refused ev rest s r)

theorem performAll_runsTo {evs : List EngineEvent} {crc : Bool} {x : Word} {s t : State}
    (hevs : ∀ ev ∈ evs, isCompletion ev = false) (hrun : s.engine.phase = .run) (hval : s.engine.validated = true)
    (hready : s.consumerReady = true) (hp : s.engine.pending = evs ++ [.complete crc x])
    (h : performAll (evs ++ [.complete crc x]) s = .next t) : EngineRunsTo s t := by
  induction evs generalizing s with
  | nil =>
    obtain ⟨u, hu, ht⟩ := performAll_cons_next hready h
    obtain ⟨c, y, rfl⟩ := perform_completion rfl hu
    cases ht
    exact .last ((engineEvent_pending hrun hval hready hp).trans hu) rfl rfl
  | cons ev rest ih =>
    obtain ⟨u, hu, ht⟩ := performAll_cons_next hready h
    have still := perform_stillRunning (hevs ev List.mem_cons_self) hu
    exact .more ((engineEvent_pending hrun hval hready hp).trans hu) still.status
      (ih (fun e he => hevs e (List.mem_cons_of_mem _ he)) (still.phase.trans hrun) (still.validated.trans hval)
        ((perform_keeps hu).ready.trans hready) still.pending ht)

/-- The validation event of a command that passes its checks. -/
theorem engineEvent_passes {s : State} {i : Instr} (hrun : s.engine.phase = .run) (hval : s.engine.validated = false)
    (hop : decode s.engine.op = .ok i) (hpass : raises i s = none) : engineEvent s = .next (loaded i s) := by
  simp only [engineEvent, hrun, hval, Bool.false_eq_true, if_false, validateEvent, hop]
  exact congrArg _ (beginCommand_passes hpass)

/-- A started command's meaning is reached by single events (R142). -/
theorem exec_runsTo {s t : State} {i : Instr} (hrun : s.engine.phase = .run) (hval : s.engine.validated = false)
    (hop : decode s.engine.op = .ok i) (hready : s.consumerReady = true) (h : exec i s = .next t) :
    EngineRunsTo s t := by
  rcases exec_cases h with ⟨e, hraises, rfl⟩ | ⟨hpass, hdrain⟩
  · exact .last (engineEvent_raises hrun hval (.inl ⟨i, hop, hraises⟩)) rfl rfl
  · obtain ⟨evs, crc, x, heq, hevs, -⟩ := eventsOf_shape i s.regs
    refine .more (engineEvent_passes hrun hval hop hpass) rfl
      (performAll_runsTo (s := loaded i s) hevs hrun rfl hready heq ?_)
    rwa [drain, loaded_pending, heq] at hdrain

/-! ## The events as scheduled steps -/

theorem runSteps_succ {s t : State} (h : step s = .next t) (n : Nat) : runSteps (n + 1) s = runSteps n t := by
  simp only [runSteps, h]

/-- A scheduled engine event. -/
theorem step_scheduledEngine {s t : State} (l : List Event) (r : List HostData) (h : engineEvent s = .next t) :
    step (withHostSide (.engine :: l) r s) = .next (withHostSide l r t) := by
  rw [step_engine (s := withHostSide (.engine :: l) r s) rfl]
  exact engineEvent_withHostSide (s := s) l r h

/-- As many scheduled engine events as the command has lead to its end. -/
theorem EngineRunsTo.exists_scheduled {s t : State} (h : EngineRunsTo s t) (r : List HostData) :
    ∃ n, runSteps n (withHostSide (List.replicate n .engine) r s) = .next (withHostSide [] r t) := by
  induction h with
  | last event _ _ => exact ⟨1, runSteps_succ (step_scheduledEngine [] r event) 0⟩
  | more event _ _ ih =>
    obtain ⟨n, hn⟩ := ih
    exact ⟨n + 1, (runSteps_succ (step_scheduledEngine _ r event) n).trans hn⟩

/-- Settles O48: the command's events, scheduled one by one. -/
theorem engineEventsReachTheMeaning : Obligations.EngineEventsReachTheMeaning := by
  intro s t i hrun hval hop hready h
  obtain ⟨n, hn⟩ := (exec_runsTo hrun hval hop hready h).exists_scheduled s.hostReads
  refine ⟨n, hn.trans ?_⟩
  rw [withHostSide, ← (exec_keeps h).hostReads]
  rfl

/-! ## Polling -/

/-- A poll while DONE is 0 reads STATUS, and comes again after the engine's next event. -/
theorem step_poll_notDone {s : State} (r : List HostData) (hdone : s.status.done = false) :
    step (withHostSide [.poll] r s) =
      .next (withHostSide [.engine, .poll] (r ++ [.word (statusWord s.busy s.status)]) s) := by
  change Host.Outcome.next (if s.status.done then _ else _) = _
  rw [hdone]
  rfl

/-- A poll that finds DONE = 1 ends. -/
theorem step_poll_done {s : State} (r : List HostData) (hdone : s.status.done = true) :
    step (withHostSide [.poll] r s) = .next (withHostSide [] (r ++ [.word (statusWord s.busy s.status)]) s) := by
  change Host.Outcome.next (if s.status.done then _ else _) = _
  rw [hdone]
  rfl

/-- Two steps of a poll that has not ended: a read of STATUS, and the engine's event. -/
theorem runSteps_pollRound {s t : State} (r : List HostData) (hdone : s.status.done = false)
    (h : engineEvent s = .next t) (n : Nat) :
    runSteps (n + 2) (withHostSide [.poll] r s) =
      runSteps n (withHostSide [.poll] (r ++ [.word (statusWord s.busy s.status)]) t) :=
  (runSteps_succ (step_poll_notDone r hdone) (n + 1)).trans (runSteps_succ (step_scheduledEngine _ _ h) n)

/-- A poll of a running command ends with the STATUS word of the command's end. -/
theorem EngineRunsTo.poll_ends {s t : State} (h : EngineRunsTo s t) (hdone : s.status.done = false)
    (r : List HostData) :
    ∃ n u, runSteps n (withHostSide [.poll] r s) = .next u ∧ u.inputs = [] ∧ u.status.done = true ∧
      u.hostReads.getLast? = some (.word (statusWord false t.status)) := by
  induction h generalizing r with
  | last event idle done =>
    refine ⟨3, _, (runSteps_pollRound r hdone event 1).trans (runSteps_succ (step_poll_done _ done) 0), rfl, done, ?_⟩
    rw [busy_eq_false_of_idle idle]
    exact List.getLast?_concat
  | more event status rest ih =>
    obtain ⟨n, u, hn, hu⟩ := ih ((congrArg Status.done status).trans hdone) _
    exact ⟨n + 2, u, (runSteps_pollRound r hdone event n).trans hn, hu⟩

/-- Settles O49: a legal command reaches its meaning by single events, an illegal word its error completion by one. -/
theorem pollEndsWhenTheCommandCompletes : Obligations.PollEndsWhenTheCommandCompletes := by
  intro s t hin hdone hrun hval hready hend
  have hruns : EngineRunsTo s t := by
    rcases hend with ⟨i, hop, h⟩ | ⟨e, hop, rfl⟩
    · exact exec_runsTo hrun hval hop hready h
    · exact .last (engineEvent_raises hrun hval (.inr ⟨e, hop, rfl⟩)) rfl rfl
  have hs : withHostSide [.poll] s.hostReads s = s := by rw [← hin]; rfl
  obtain ⟨n, u, hn, hu⟩ := hruns.poll_ends hdone s.hostReads
  exact ⟨n, u, hs ▸ hn, hu⟩

end Sys2Proof.Machine
